-- ==== Sys2Proof/Word.lean ====
section
/-! DEFINITION. The words that cross the ports of CAN26-CORE and the record types of 10_state.md section 4. -/

namespace Sys2Proof

/-- One byte of BUF (20_memory.md R20). -/
abbrev Byte := BitVec 8

/-- The operand `a` and the result `r`: `OPW` = 32 bits (00_scope.md R3). -/
abbrev Word := BitVec 32

/-- A request word: `REQ_BITS` = 48 bits (00_scope.md R3, 30_encoding.md R35). -/
abbrev ReqWord := BitVec 48

/-- A response word: `RSP_BITS` = 34 bits (00_scope.md R3, 30_encoding.md R36). -/
abbrev RspWord := BitVec 34

/-- Frame priority (10_state.md R17): one of LOW, HIGH. -/
inductive Priority
  | low
  | high
  deriving DecidableEq, Repr

/-- The priority bit `P` of a record: LOW = 0, HIGH = 1 (10_state.md R17). -/
def Priority.bit : Priority → Bool
  | .low => false
  | .high => true

/-- The priority whose record bit `P` is the given one. -/
def Priority.ofBit (p : Bool) : Priority := if p then .high else .low

/-- A Device Address (10_state.md R16): a 7-bit `uniqueId` and three independent flags. -/
structure DeviceAddress where
  uniqueId   : BitVec 7
  peripheral : Bool
  motor      : Bool
  power      : Bool
  deriving DecidableEq, Repr

/-- A unicast address "names one node by a non-zero `uniqueId`" (10_state.md R16). DESIGN CHOICE (log entry 21): a
non-zero `uniqueId` together with domain flags, a combination to which 93 U6 says no meaning is stated, counts as
unicast here. No operation, no statement and no other definition uses this (44_header.md R122). -/
def DeviceAddress.isUnicast (da : DeviceAddress) : Bool := da.uniqueId != 0

/-- A domain-broadcast address: `uniqueId = 0` and one or more domain flags set (10_state.md R16). `uniqueId = 0` with
no flag, which has no stated meaning either (93 U6), is neither kind (log entry 21). No operation uses this (44_header.md
R122). -/
def DeviceAddress.isBroadcast (da : DeviceAddress) : Bool :=
  da.uniqueId == 0 && (da.peripheral || da.motor || da.power)

end Sys2Proof
end

