-- ==== Sys2Proof/Config.lean ====
section
/-! DEFINITION. What an implementation fixes (00_scope.md R3), the parameters the spec offers (93 U3, U11), and
the free values. An `opaque` constant here has no body: no proof can see its value. -/

namespace Sys2Proof.Config

/-- `BUF_BYTES` (00_scope.md R3, 20_memory.md R20). -/
abbrev bufBytes : Nat := 8

/-- `MAX_CONTENT` (00_scope.md R3, 10_state.md R17). -/
abbrev maxContent : Nat := 6

/-- `UNORM_MAX(N)` = 2^N - 1: 255, 65535, 16777215 for the widths 8, 16, 24 (00_scope.md R3). -/
def unormMax (N : Nat) : Nat := 2 ^ N - 1

/-- The two readings of the UNorm encode rule (93_implementation_defined.md U3). -/
inductive UnormArith
  | exact     -- exact arithmetic, the normative reading (92 D19)
  | binary32  -- each intermediate rounded to binary32, ties to even; not normative
  deriving DecidableEq, Repr

/-- `UNORM_ENC_ARITH`, at the spec's default `exact` (92 D19, 93 U3; UNVERIFIED, log entry 10). -/
def unormEncArith : UnormArith := .exact

/-- The two orders of the domain flags in the low three bits (90_conflicts.md C1, 93 U11). -/
inductive FlagOrder
  | peripheralHigh  -- peripheral = bit 2, power = bit 0: the resolution of C1
  | powerHigh       -- peripheral = bit 0, power = bit 2: the source's decode sentence
  deriving DecidableEq, Repr

/-- `HDR_FLAG_ORDER`, at the spec's default (90_conflicts.md C1, 93 U11; UNVERIFIED, log entry 11). -/
def hdrFlagOrder : FlagOrder := .peripheralHigh

/-- `HOST_LE` of the machine that starts at `State.reset`: OPEN (92 D15), so it has no body (log entry 3). -/
opaque hostLe : Bool

/-- `HOST_BITFIELD_LSB_FIRST` of the machine that starts at `State.reset`: OPEN (92 D15; log entry 3). -/
opaque hostBitfieldLsbFirst : Bool

/-- The unknown value of `BUF[addr]` while nothing has written it since the reset numbered `epoch`
(70_reset_and_hazards.md R150; log entries 1 and 2). DESIGN CHOICE (log entry 22): it names no instance, so two instances
(20_memory.md R32) at the same `epoch` read the same unknown byte at the same offset. -/
opaque unwrittenByte (epoch addr : Nat) : Byte

end Sys2Proof.Config
end

