-- ==== Sys2Proof/Syntax.lean ====
section
/-! DEFINITION. The instructions: one constructor per row of spec/opcode_table.json, in the table's order. An
operand is exactly the field the operation reads (30_encoding.md R38); the bits it ignores are dropped by Decode. -/

namespace Sys2Proof

/-- One request of 30_encoding.md R37. A wire integer or pattern has the width its row reads; a byte offset, a
content length and a data-length code are unsigned integers that WellFormed bounds by their 8-bit fields. -/
inductive Instr
  -- 40_portability.md
  | hostle
  | bflsb
  | bswap16 (v : BitVec 16)
  | bswap32 (v : BitVec 32)
  | clz16 (v : BitVec 16)
  -- 41_loadstore.md, loads
  | ldu8 (off : Nat)
  | ldu16 (off : Nat)
  | ldu24 (off : Nat)
  | ldu32 (off : Nat)
  | ldi16 (off : Nat)
  | ldi24 (off : Nat)
  | ldi32 (off : Nat)
  -- 41_loadstore.md, stores
  | stu8 (off : Nat) (v : BitVec 8)
  | stu16 (off : Nat) (v : BitVec 16)
  | stu24 (off : Nat) (v : BitVec 24)
  | stu32 (off : Nat) (v : BitVec 32)
  | sti16 (off : Nat) (v : BitVec 16)
  | sti24 (off : Nat) (v : BitVec 24)
  | sti32 (off : Nat) (v : BitVec 32)
  -- 42_float.md and 43_unorm.md, decoders
  | f32dec (wire : BitVec 32)
  | f16dec (wire : BitVec 16)
  | bf16dec (wire : BitVec 16)
  | bf24dec (wire : BitVec 24)
  | un8dec (wire : BitVec 8)
  | un16dec (wire : BitVec 16)
  | un24dec (wire : BitVec 24)
  -- 42_float.md and 43_unorm.md, encoders
  | f32enc (x : BitVec 32)
  | f16enc (x : BitVec 32)
  | bf16enc (x : BitVec 32)
  | bf24enc (x : BitVec 32)
  | un8enc (x : BitVec 32)
  | un16enc (x : BitVec 32)
  | un24enc (x : BitVec 32)
  -- 44_header.md
  | hdrenc (priority : Priority) (da : DeviceAddress)
  | hdrdec (id : BitVec 11)
  | dlcenc (contentLength : Nat)
  | dlcdec (dlc : Nat)
  deriving DecidableEq, Repr

end Sys2Proof
end

