-- ==== Sys2Proof/WellFormed.lean ====
section
/-! DEFINITION. When an instruction has an encoding: each unsigned-integer operand fits the 8-bit field that
carries it. Every other operand fits by its type ("never negative or wider than its field", 10_state.md R16). -/

namespace Sys2Proof

/-- Fits an 8-bit field: `off` (30_encoding.md R35), `contentLength`, `dlc` (44_header.md R118, R119). -/
abbrev fitsByte (n : Nat) : Bool := decide (n < 256)

/-- The instruction can be written as a request word. It says nothing about faults: an out-of-bounds load is
well-formed, and raises. -/
def Instr.wf : Instr → Bool
  | .ldu8 off => fitsByte off
  | .ldu16 off => fitsByte off
  | .ldu24 off => fitsByte off
  | .ldu32 off => fitsByte off
  | .ldi16 off => fitsByte off
  | .ldi24 off => fitsByte off
  | .ldi32 off => fitsByte off
  | .stu8 off _ => fitsByte off
  | .stu16 off _ => fitsByte off
  | .stu24 off _ => fitsByte off
  | .stu32 off _ => fitsByte off
  | .sti16 off _ => fitsByte off
  | .sti24 off _ => fitsByte off
  | .sti32 off _ => fitsByte off
  | .dlcenc len => fitsByte len
  | .dlcdec dlc => fitsByte dlc
  | .hostle => true
  | .bflsb => true
  | .bswap16 _ => true
  | .bswap32 _ => true
  | .clz16 _ => true
  | .f32dec _ => true
  | .f16dec _ => true
  | .bf16dec _ => true
  | .bf24dec _ => true
  | .un8dec _ => true
  | .un16dec _ => true
  | .un24dec _ => true
  | .f32enc _ => true
  | .f16enc _ => true
  | .bf16enc _ => true
  | .bf24enc _ => true
  | .un8enc _ => true
  | .un16enc _ => true
  | .un24enc _ => true
  | .hdrenc _ _ => true
  | .hdrdec _ => true

end Sys2Proof
end

