-- ==== Sys2Proof/Decode.lean ====
section
/-! DEFINITION. The request word of 30_encoding.md, its decoder, total on all 2^48 words, and the encoder. -/

namespace Sys2Proof

/-! ## The request word (R35) -/

/-- `req.op` = `req[47:40]`. -/
def reqOp (w : ReqWord) : BitVec 8 := w.extractLsb' 40 8

/-- `req.off` = `req[39:32]`. -/
def reqOff (w : ReqWord) : BitVec 8 := w.extractLsb' 32 8

/-- `req.a` = `req[31:0]`. -/
def reqA (w : ReqWord) : Word := w.extractLsb' 0 32

/-- The request word `(op << 40) | (off << 32) | a` (R40). -/
def reqWord (op off : BitVec 8) (a : Word) : ReqWord := op ++ off ++ a

/-! ## The Device Address composite (10_state.md R16) -/

/-- The bit of the composite, and of the identifier, that holds `peripheralDomain` (90_conflicts.md C1). -/
def peripheralPos : Config.FlagOrder → Nat
  | .peripheralHigh => 2
  | .powerHigh => 0

/-- The bit that holds `powerDomain` (90_conflicts.md C1). -/
def powerPos : Config.FlagOrder → Nat
  | .peripheralHigh => 0
  | .powerHigh => 2

/-- A flag as a bit string of the given width: 1 for true. -/
def flagBit (w : Nat) (b : Bool) : BitVec w := BitVec.ofNat w b.toNat

/-- `DA[9:0]`: `uniqueId` at bits 9..3, `motorDomain` at bit 1, the other two flags as `o` says. -/
def packAddress (o : Config.FlagOrder) (da : DeviceAddress) : BitVec 10 :=
  (da.uniqueId.setWidth 10 <<< 3) ||| (flagBit 10 da.peripheral <<< peripheralPos o) |||
    (flagBit 10 da.motor <<< 1) ||| (flagBit 10 da.power <<< powerPos o)

/-- The Device Address that a composite's low 10 bits stand for. -/
def unpackAddress (o : Config.FlagOrder) (c : BitVec 10) : DeviceAddress where
  uniqueId := c.extractLsb' 3 7
  peripheral := c.getLsbD (peripheralPos o)
  motor := c.getLsbD 1
  power := c.getLsbD (powerPos o)

/-- HDRENC's operand: `a[16]` = `P`, `a[9:0]` = `DA[9:0]`, the other bits zero (R40, 44_header.md R116). -/
def headerOperand (p : Priority) (da : DeviceAddress) : Word :=
  (flagBit 32 p.bit <<< 16) ||| (packAddress Config.hdrFlagOrder da).setWidth 32

/-! ## The operation map (R37) and the operand fields (R38) -/

/-- What a row of R37 reads from `off` and `a`: the fields are pulled out here, the ignored bits dropped. -/
abbrev ReadFields := BitVec 8 → Word → Instr

def portabilityRows : List (BitVec 8 × ReadFields) :=
  [(0x01, fun _ _ => .hostle),
   (0x02, fun _ _ => .bflsb),
   (0x03, fun _ a => .bswap16 (a.extractLsb' 0 16)),
   (0x04, fun _ a => .bswap32 a),
   (0x05, fun _ a => .clz16 (a.extractLsb' 0 16))]

def loadRows : List (BitVec 8 × ReadFields) :=
  [(0x10, fun off _ => .ldu8 off.toNat),
   (0x11, fun off _ => .ldu16 off.toNat),
   (0x12, fun off _ => .ldu24 off.toNat),
   (0x13, fun off _ => .ldu32 off.toNat),
   (0x15, fun off _ => .ldi16 off.toNat),
   (0x16, fun off _ => .ldi24 off.toNat),
   (0x17, fun off _ => .ldi32 off.toNat)]

def storeRows : List (BitVec 8 × ReadFields) :=
  [(0x20, fun off a => .stu8 off.toNat (a.extractLsb' 0 8)),
   (0x21, fun off a => .stu16 off.toNat (a.extractLsb' 0 16)),
   (0x22, fun off a => .stu24 off.toNat (a.extractLsb' 0 24)),
   (0x23, fun off a => .stu32 off.toNat a),
   (0x25, fun off a => .sti16 off.toNat (a.extractLsb' 0 16)),
   (0x26, fun off a => .sti24 off.toNat (a.extractLsb' 0 24)),
   (0x27, fun off a => .sti32 off.toNat a)]

def decoderRows : List (BitVec 8 × ReadFields) :=
  [(0x30, fun _ a => .f32dec a),
   (0x31, fun _ a => .f16dec (a.extractLsb' 0 16)),
   (0x32, fun _ a => .bf16dec (a.extractLsb' 0 16)),
   (0x33, fun _ a => .bf24dec (a.extractLsb' 0 24)),
   (0x34, fun _ a => .un8dec (a.extractLsb' 0 8)),
   (0x35, fun _ a => .un16dec (a.extractLsb' 0 16)),
   (0x36, fun _ a => .un24dec (a.extractLsb' 0 24))]

def encoderRows : List (BitVec 8 × ReadFields) :=
  [(0x40, fun _ a => .f32enc a),
   (0x41, fun _ a => .f16enc a),
   (0x42, fun _ a => .bf16enc a),
   (0x43, fun _ a => .bf24enc a),
   (0x44, fun _ a => .un8enc a),
   (0x45, fun _ a => .un16enc a),
   (0x46, fun _ a => .un24enc a)]

def headerRows : List (BitVec 8 × ReadFields) :=
  [(0x50, fun _ a => .hdrenc (.ofBit (a.getLsbD 16)) (unpackAddress Config.hdrFlagOrder (a.extractLsb' 0 10))),
   (0x51, fun _ a => .hdrdec (a.extractLsb' 0 11)),
   (0x52, fun _ a => .dlcenc (a.extractLsb' 0 8).toNat),
   (0x53, fun _ a => .dlcdec (a.extractLsb' 0 8).toNat)]

/-- The whole table of R37, in its order: 37 rows, every `op` not listed reserved (R39). -/
def opTable : List (BitVec 8 × ReadFields) :=
  portabilityRows ++ loadRows ++ storeRows ++ decoderRows ++ encoderRows ++ headerRows

/-- Why a request word is no operation. -/
inductive DecodeError
  /-- `op` is not in the table of R37. -/
  | reservedOp (op : BitVec 8)
  deriving DecidableEq, Repr

/-- The decoder: "compare `req[47:40]` with the `op` column" (R37); a reserved `op` is rejected by name (R39). -/
def decode (w : ReqWord) : Except DecodeError Instr :=
  match opTable.lookup (reqOp w) with
  | some read => .ok (read (reqOff w) (reqA w))
  | none => .error (.reservedOp (reqOp w))

/-! ## The encoder -/

/-- The `op` of each operation (R37). -/
def Instr.op : Instr → BitVec 8
  | .hostle => 0x01
  | .bflsb => 0x02
  | .bswap16 _ => 0x03
  | .bswap32 _ => 0x04
  | .clz16 _ => 0x05
  | .ldu8 _ => 0x10
  | .ldu16 _ => 0x11
  | .ldu24 _ => 0x12
  | .ldu32 _ => 0x13
  | .ldi16 _ => 0x15
  | .ldi24 _ => 0x16
  | .ldi32 _ => 0x17
  | .stu8 _ _ => 0x20
  | .stu16 _ _ => 0x21
  | .stu24 _ _ => 0x22
  | .stu32 _ _ => 0x23
  | .sti16 _ _ => 0x25
  | .sti24 _ _ => 0x26
  | .sti32 _ _ => 0x27
  | .f32dec _ => 0x30
  | .f16dec _ => 0x31
  | .bf16dec _ => 0x32
  | .bf24dec _ => 0x33
  | .un8dec _ => 0x34
  | .un16dec _ => 0x35
  | .un24dec _ => 0x36
  | .f32enc _ => 0x40
  | .f16enc _ => 0x41
  | .bf16enc _ => 0x42
  | .bf24enc _ => 0x43
  | .un8enc _ => 0x44
  | .un16enc _ => 0x45
  | .un24enc _ => 0x46
  | .hdrenc _ _ => 0x50
  | .hdrdec _ => 0x51
  | .dlcenc _ => 0x52
  | .dlcdec _ => 0x53

/-- The `off` field of an operation's request: the offset of a load or store, else zero (R40). -/
def Instr.offField : Instr → BitVec 8
  | .ldu8 off => .ofNat 8 off
  | .ldu16 off => .ofNat 8 off
  | .ldu24 off => .ofNat 8 off
  | .ldu32 off => .ofNat 8 off
  | .ldi16 off => .ofNat 8 off
  | .ldi24 off => .ofNat 8 off
  | .ldi32 off => .ofNat 8 off
  | .stu8 off _ => .ofNat 8 off
  | .stu16 off _ => .ofNat 8 off
  | .stu24 off _ => .ofNat 8 off
  | .stu32 off _ => .ofNat 8 off
  | .sti16 off _ => .ofNat 8 off
  | .sti24 off _ => .ofNat 8 off
  | .sti32 off _ => .ofNat 8 off
  | .hostle => 0
  | .bflsb => 0
  | .bswap16 _ => 0
  | .bswap32 _ => 0
  | .clz16 _ => 0
  | .f32dec _ => 0
  | .f16dec _ => 0
  | .bf16dec _ => 0
  | .bf24dec _ => 0
  | .un8dec _ => 0
  | .un16dec _ => 0
  | .un24dec _ => 0
  | .f32enc _ => 0
  | .f16enc _ => 0
  | .bf16enc _ => 0
  | .bf24enc _ => 0
  | .un8enc _ => 0
  | .un16enc _ => 0
  | .un24enc _ => 0
  | .hdrenc _ _ => 0
  | .hdrdec _ => 0
  | .dlcenc _ => 0
  | .dlcdec _ => 0

/-- The `a` field of an operation's request: its value operand zero-extended, else zero (R40). -/
def Instr.aField : Instr → Word
  | .bswap16 v => v.setWidth 32
  | .bswap32 v => v
  | .clz16 v => v.setWidth 32
  | .stu8 _ v => v.setWidth 32
  | .stu16 _ v => v.setWidth 32
  | .stu24 _ v => v.setWidth 32
  | .stu32 _ v => v
  | .sti16 _ v => v.setWidth 32
  | .sti24 _ v => v.setWidth 32
  | .sti32 _ v => v
  | .f32dec x => x
  | .f16dec h => h.setWidth 32
  | .bf16dec h => h.setWidth 32
  | .bf24dec h => h.setWidth 32
  | .un8dec n => n.setWidth 32
  | .un16dec n => n.setWidth 32
  | .un24dec n => n.setWidth 32
  | .f32enc x => x
  | .f16enc x => x
  | .bf16enc x => x
  | .bf24enc x => x
  | .un8enc x => x
  | .un16enc x => x
  | .un24enc x => x
  | .hdrenc p da => headerOperand p da
  | .hdrdec id => id.setWidth 32
  | .dlcenc len => (BitVec.ofNat 8 len).setWidth 32
  | .dlcdec dlc => (BitVec.ofNat 8 dlc).setWidth 32
  | .hostle => 0
  | .bflsb => 0
  | .ldu8 _ => 0
  | .ldu16 _ => 0
  | .ldu24 _ => 0
  | .ldu32 _ => 0
  | .ldi16 _ => 0
  | .ldi24 _ => 0
  | .ldi32 _ => 0

/-- The request word of an instruction, every ignored bit zero (R40). -/
def encode (i : Instr) : ReqWord := reqWord i.op i.offField i.aField

/-- The instruction the decoder reads from a table word: `w` numbered as spec/opcode_table.json numbers it, which is
the request word of R35 itself (log entry 12). A word wider than the request port is none. -/
def decodeTableWord (nbits w : Nat) : Option Instr :=
  let bits := w % 2 ^ nbits
  if bits < 2 ^ 48 then
    match decode (BitVec.ofNat 48 bits) with
    | .ok i => some i
    | .error _ => none
  else none

end Sys2Proof
end

