-- ==== Sys2Proof/Machine/State.lean ====
section
/-! DEFINITION. The state of CAN26-CORE as plain data: BUF, the two constants of the host, the two ports; and the
reasons a step can stop. -/

namespace Sys2Proof.Machine

/-- BUF (20_memory.md R20) as the bytes written since the last reset: `(offset, byte)` pairs, offsets strictly rising.
An offset not listed has no written byte; its value is then unknown (70_reset_and_hazards.md R150). -/
abbrev Memory := List Host.Cell

/-- The canonical form of BUF: offsets strictly rising, and each of them an offset of BUF. No entry can equal what an
unlisted offset holds, which is no written byte. -/
abbrev Memory.wf (m : Memory) : Prop :=
  m.Pairwise (fun x y => x.1 < y.1) ∧ ∀ c ∈ m, c.1 < Config.bufBytes

/-- The outcome indication of a response (60_exceptions.md R130). The code 3 is never produced, so it has no name. -/
inductive Status
  | ok
  | malformedFrame
  | contractViolation
  deriving DecidableEq, Repr

/-- A response (30_encoding.md R36). -/
structure Response where
  status : Status
  r      : Word
  deriving DecidableEq, Repr

/-- The two read-only constants of an attached host (10_state.md R14). No step changes them. -/
structure HostOrder where
  le               : Bool
  bitfieldLsbFirst : Bool
  deriving DecidableEq, Repr

/-- What the outside does to the block, one item a step, in the single order of 20_memory.md R29. -/
inductive Input
  /-- A request word is presented (30_encoding.md R35). -/
  | request (w : ReqWord)
  /-- The requester, or its driver, writes one byte of BUF between requests (20_memory.md R31). -/
  | bufWrite (off : Fin Config.bufBytes) (b : Byte)
  /-- The block is reset (70_reset_and_hazards.md R150). -/
  | reset
  /-- A request is presented and another agent accesses BUF before its response (93 U4): outside the contract. -/
  | contended (w : ReqWord)
  deriving DecidableEq, Repr

/-- Everything the spec gives the machine, and the model's own counter `epoch`. -/
structure State where
  /-- `HOST_LE`, `HOST_BITFIELD_LSB_FIRST` (10_state.md R14). -/
  host   : HostOrder
  /-- BUF (10_state.md R15). -/
  buf    : Memory
  /-- The model's own field: how many resets there have been, which selects BUF's unknown bytes (DESIGN CHOICE, log
  entry 2). -/
  epoch  : Nat
  /-- The request port: what the outside will do, oldest first (DESIGN CHOICE, log entry 4). -/
  inputs : List Input
  /-- The response port: the response delivered by the last step, none if it performed no request
  (DESIGN CHOICE, log entry 5). -/
  rsp    : Option Response
  deriving DecidableEq, Repr

/-- Why the machine stops with a fault: never. Every fault of the spec is a response code (60_exceptions.md R137,
"not a fatal abort", R138), so nothing raises one (DEDUCED, log entry 15); it is safe, since there is nothing to raise. -/
inductive Fault
  deriving DecidableEq, Repr

/-- Why the model gives a step no meaning. -/
inductive Refusal
  /-- An instruction without a meaning yet. Raised by nothing: every operation has its meaning. Safe. -/
  | notModelled (mnemonic : String)
  /-- A request during which another agent accesses BUF, raised by `step` alone, or two instances on one BUF, raised by
  `System.stepAt`; 93 U4: "the model gives no behaviour to such a configuration". Safe: it errs toward unprovable (log
  entry 7). -/
  | aliasedBuffer
  deriving DecidableEq, Repr

/-- What a meaning and a step answer. -/
abbrev Result := Host.Outcome State Fault Refusal

/-- The machine right after reset (70_reset_and_hazards.md R150): nothing written in BUF, both ports idle, the constants
what they always are. -/
def State.reset : State where
  host := ⟨Config.hostLe, Config.hostBitfieldLsbFirst⟩
  buf := []
  epoch := 0
  inputs := []
  rsp := none

end Sys2Proof.Machine
end

