-- ==== Sys2Proof/Machine/Flags.lean ====
section
/-! DEFINITION. The outcome indication. CAN26-CORE has no flags and no condition codes (10_state.md R13): the only
indication of an outcome is the 2-bit `status` of an operation's own response. -/

namespace Sys2Proof.Machine

/-- The exceptions of 60_exceptions.md R131 and R132. -/
inductive Cause
  | malformedFrame
  | contractViolation
  deriving DecidableEq, Repr

/-- The status an exception is reported with (R130). -/
def Cause.status : Cause → Status
  | .malformedFrame => .malformedFrame
  | .contractViolation => .contractViolation

/-- The numeric status codes (R130). -/
def Status.code : Status → BitVec 2
  | .ok => 0
  | .malformedFrame => 1
  | .contractViolation => 2

/-- The 34-bit response word: `rsp[33:32]` = status, `rsp[31:0]` = result (30_encoding.md R36). -/
def Response.word (p : Response) : RspWord := p.status.code ++ p.r

end Sys2Proof.Machine
end

