-- ==== Sys2Proof/Machine/Ops.lean ====
section
/-! DEFINITION. The shared operations: one byte of BUF, answering a request, taking an exception, `MemRead` and
`MemWrite` of 20_memory.md. -/

namespace Sys2Proof.Machine

/-! ## One byte of BUF -/

/-- The byte written at an offset since the last reset, if any. -/
def Memory.read? : Memory → Nat → Option Byte
  | [], _ => none
  | (a', b') :: m, a => if a = a' then some b' else Memory.read? m a

/-- Writes one byte, keeping the offsets rising. -/
def Memory.write : Memory → Nat → Byte → Memory
  | [], a, b => [(a, b)]
  | (a', b') :: m, a, b =>
    if a < a' then (a, b) :: (a', b') :: m
    else if a = a' then (a, b) :: m
    else (a', b') :: Memory.write m a b

/-- `BUF[a]`: the byte last written there, or its unknown value when nothing has written it since reset
(70_reset_and_hazards.md R150, log entry 1). That value is a function of `epoch` and the offset alone, whichever instance
the state is of (DESIGN CHOICE, log entry 22). -/
def State.bufByte (s : State) (a : Nat) : Byte :=
  (s.buf.read? a).getD (Config.unwrittenByte s.epoch a)

/-! ## Ending an operation -/

/-- `rsp(OK, r)`: the operation is performed and `r` is delivered (30_encoding.md R36). -/
def respond (r : Word) (s : State) : Result :=
  .next { s with rsp := some ⟨.ok, r⟩ }

/-- Taking an exception (60_exceptions.md R137): the response is `rsp(code, 0)`, no byte of BUF is written, nothing is
saved, control goes nowhere. There is no return operation: the block takes the next request as after any response (R138). -/
def raise (c : Cause) (s : State) : Result :=
  .next { s with rsp := some ⟨c.status, 0⟩ }

/-! ## Accesses of several bytes: little-endian, at any offset -/

/-- `BUF[addr] | BUF[addr+1] << 8 | ...`, `n` bytes (20_memory.md R21, R22), as an unsigned integer. -/
def readLE (s : State) : (addr n : Nat) → Nat
  | _, 0 => 0
  | addr, n + 1 => (s.bufByte addr).toNat + 2 ^ 8 * readLE s (addr + 1) n

/-- `BUF[addr+k] <- v[8k+7 : 8k]` for `k` in 0..n-1 (20_memory.md R23); the bits of `v` above go nowhere. -/
def writeLE : Memory → (addr n v : Nat) → Memory
  | m, _, 0, _ => m
  | m, addr, n + 1, v => writeLE (m.write addr (BitVec.ofNat 8 v)) (addr + 1) n (v / 2 ^ 8)

/-- The bounds check of 20_memory.md R25, on unbounded integers. -/
abbrev outOfBounds (addr n : Nat) : Bool := decide (addr + n > Config.bufBytes)

/-- `MemRead(addr, n)` (R22), with its bounds check. -/
def memRead (s : State) (addr n : Nat) : Except Cause Nat :=
  if outOfBounds addr n then .error .contractViolation else .ok (readLE s addr n)

/-- `MemWrite(addr, n, v)` (R23), with its bounds check: all the bytes or none. -/
def memWrite (s : State) (addr n v : Nat) : Except Cause State :=
  if outOfBounds addr n then .error .contractViolation else .ok { s with buf := writeLE s.buf addr n v }

/-! ## What the outside does to BUF -/

/-- The requester or its driver writes one byte between requests (20_memory.md R31). -/
def State.outsideWrite (s : State) (off : Nat) (b : Byte) : State :=
  { s with buf := s.buf.write off b }

/-- Reset (70_reset_and_hazards.md R150): every byte of BUF is unknown anew, no response is pending, the constants stay.
What the outside will present next is the outside's, and stays (DESIGN CHOICE, log entry 8). -/
def State.afterReset (s : State) : State :=
  { s with buf := [], epoch := s.epoch + 1, rsp := none }

end Sys2Proof.Machine
end

