-- ==== Sys2Proof/Machine/Operands.lean ====
section
/-! DEFINITION. The operand forms of the load/store unit and the extensions of 00_scope.md section 4. The one addressing
mode is `addr = off` (41_loadstore.md R60). -/

namespace Sys2Proof.Machine

/-- `zext_32` of a wire integer. -/
def zext32 {n : Nat} (v : BitVec n) : Word := v.setWidth 32

/-- `sext_32` of a wire integer: copies of its top bit above it. -/
def sext32 {n : Nat} (v : BitVec n) : Word := v.signExtend 32

/-- The bytes an access of `n` bytes at `off` touches: `off .. off+n-1`. -/
abbrev accessed (off n : Nat) (a : Nat) : Bool := decide (off ≤ a) && decide (a < off + n)

/-- A load of `n` bytes at `off`, delivering the value through `ext`; ContractViolation out of bounds (R60). -/
def load (off n : Nat) (ext : Nat → Word) (s : State) : Result :=
  match memRead s off n with
  | .ok v => respond (ext v) s
  | .error c => raise c s

/-- A store of the low `n` bytes of `v` at `off`; its response is `rsp(OK, 0)` (R60). -/
def store (off n v : Nat) (s : State) : Result :=
  match memWrite s off n v with
  | .ok t => respond 0 t
  | .error c => raise c s

end Sys2Proof.Machine
end

