-- ==== Sys2Proof/Machine/Portability.lean ====
section
/-! DEFINITION. Endian and bit portability operations (40_portability.md). None touches BUF, none raises. -/

namespace Sys2Proof.Machine

/-- Exchanges the two bytes of a 16-bit value (R52). -/
def bswap16 (v : BitVec 16) : BitVec 16 := v.extractLsb' 0 8 ++ v.extractLsb' 8 8

/-- Reverses the four bytes of a 32-bit value (R53). -/
def bswap32 (v : Word) : Word :=
  v.extractLsb' 0 8 ++ v.extractLsb' 8 8 ++ v.extractLsb' 16 8 ++ v.extractLsb' 24 8

/-- The zero bits of `v` counted from bit `k - 1` downward to the first one bit, or to the end. -/
def zerosBelow (v : BitVec 16) : Nat → Nat
  | 0 => 0
  | k + 1 => if v.getLsbD k then 0 else 1 + zerosBelow v k

/-- `clz16(v)` (R54): the count of leading zero bits, 16 for zero. -/
def clz16 (v : BitVec 16) : Nat := zerosBelow v 16

/-- HOSTLE (R50). -/
def execHostle (s : State) : Result := respond (zext32 (flagBit 1 s.host.le)) s

/-- BFLSB (R51). -/
def execBflsb (s : State) : Result := respond (zext32 (flagBit 1 s.host.bitfieldLsbFirst)) s

/-- BSWAP16 (R52). -/
def execBswap16 (v : BitVec 16) (s : State) : Result := respond (zext32 (bswap16 v)) s

/-- BSWAP32 (R53). -/
def execBswap32 (v : Word) (s : State) : Result := respond (bswap32 v) s

/-- CLZ16 (R54). -/
def execClz16 (v : BitVec 16) (s : State) : Result := respond (BitVec.ofNat 32 (clz16 v)) s

end Sys2Proof.Machine
end

