-- ==== Sys2Proof/Machine/Float.lean ====
section
/-! DEFINITION. Float32, Float16, BFloat16 and BFloat24 converters (42_float.md), on bit patterns. No rounding mode, no
exception flag, never an error (R80). -/

namespace Sys2Proof.Machine

/-! ## The fields of a binary32 pattern (00_scope.md section 4) -/

/-- `x[31]`, 1 for negative. -/
def signBit (x : Word) : Nat := (x.extractLsb' 31 1).toNat

/-- The exponent field `B = x[30:23]`. -/
def expField (x : Word) : Nat := (x.extractLsb' 23 8).toNat

/-- The mantissa field `M = x[22:0]`. -/
def manField (x : Word) : Nat := (x.extractLsb' 0 23).toNat

/-- `isNaN32(x)`. -/
def isNaN32 (x : Word) : Bool := expField x == 0xFF && manField x != 0

/-- `isInf32(x)`. -/
def isInf32 (x : Word) : Bool := expField x == 0xFF && manField x == 0

/-- `val(x)` (93_implementation_defined.md GK1): the exact rational a finite pattern denotes. The spec gives no value to an
infinity or a NaN, and nothing here uses one (PRESUMED, log entry 13). -/
def val (x : Word) : ℚ :=
  let mag : ℚ :=
    if expField x = 0 then (manField x : ℚ) * (2 : ℚ) ^ (-149 : ℤ)
    else ((2 ^ 23 + manField x : ℕ) : ℚ) * (2 : ℚ) ^ ((expField x : ℤ) - 150)
  if signBit x = 1 then -mag else mag

/-! ## The conversions -/

/-- Float16 wire integer to binary32 pattern (R83). -/
def f16dec (h : BitVec 16) : Word :=
  let s : Word := (h.extractLsb' 15 1).setWidth 32
  let e : Word := (h.extractLsb' 10 5).setWidth 32
  let m : Word := (h.extractLsb' 0 10).setWidth 32
  if e = 0x1F then (s <<< 31) ||| (0xFF <<< 23) ||| (m <<< 13)
  else if e = 0 ∧ m = 0 then s <<< 31
  else if e = 0 then
    let lz := clz16 (m.setWidth 16)
    let m' := (m <<< (lz - 5)) &&& 0x3FF
    (s <<< 31) ||| (BitVec.ofNat 32 (118 - lz) <<< 23) ||| (m' <<< 13)
  else (s <<< 31) ||| ((e + 112) <<< 23) ||| (m <<< 13)

/-- binary32 pattern to Float16 wire integer (R84). A carry out of the mantissa is added into the exponent (92 D16). -/
def f16enc (x : Word) : BitVec 16 :=
  let s := signBit x
  let B := expField x
  let M := manField x
  let E : Int := (B : Int) - 127
  if E ≥ 16 then
    if B = 0xFF ∧ M ≠ 0 then 0x7FFF
    else BitVec.ofNat 16 (s <<< 15 ||| 0x7C00)
  else if E < -25 then BitVec.ofNat 16 (s <<< 15)
  else if E < -14 then
    let X := 0x800000 ||| M
    let sh := (13 + (-14 - E)).toNat
    let q := (X >>> sh) + ((X >>> (sh - 1)) &&& 1)
    BitVec.ofNat 16 (s <<< 15 ||| q)
  else
    BitVec.ofNat 16 (s <<< 15 ||| (((E + 15).toNat <<< 10) + (M >>> 13) + ((M >>> 12) &&& 1)))

/-- BFloat16 wire integer to binary32 pattern (R85): the stored bits are the top 16 (90_conflicts.md C5). -/
def bf16dec (h : BitVec 16) : Word := h.setWidth 32 <<< 16

/-- binary32 pattern to BFloat16 wire integer (R86): the sum is mod 2^16, NaN patterns like any other (92 D33). -/
def bf16enc (a : Word) : BitVec 16 := a.extractLsb' 16 16 + (a.extractLsb' 15 1).setWidth 16

/-- BFloat24 wire integer to binary32 pattern (R87). -/
def bf24dec (h : BitVec 24) : Word := h.setWidth 32 <<< 8

/-- binary32 pattern to BFloat24 wire integer (R88): the sum is mod 2^24. -/
def bf24enc (a : Word) : BitVec 24 := a.extractLsb' 8 24 + (a.extractLsb' 7 1).setWidth 24

/-! ## The operations -/

/-- F32DEC (R81): a reinterpretation is the identity on bit patterns. -/
def execF32dec (wire : Word) (s : State) : Result := respond wire s

/-- F16DEC (R83). -/
def execF16dec (wire : BitVec 16) (s : State) : Result := respond (f16dec wire) s

/-- BF16DEC (R85). -/
def execBf16dec (wire : BitVec 16) (s : State) : Result := respond (bf16dec wire) s

/-- BF24DEC (R87). -/
def execBf24dec (wire : BitVec 24) (s : State) : Result := respond (bf24dec wire) s

/-- F32ENC (R82). -/
def execF32enc (x : Word) (s : State) : Result := respond x s

/-- F16ENC (R84). -/
def execF16enc (x : Word) (s : State) : Result := respond (zext32 (f16enc x)) s

/-- BF16ENC (R86). -/
def execBf16enc (x : Word) (s : State) : Result := respond (zext32 (bf16enc x)) s

/-- BF24ENC (R88). -/
def execBf24enc (x : Word) (s : State) : Result := respond (zext32 (bf24enc x)) s

end Sys2Proof.Machine
end

