-- ==== Sys2Proof/Machine/Header.lean ====
section
/-! DEFINITION. The CAN identifier packer and the data-length coder (44_header.md), and the command byte and data
section of 10_state.md R18 and 20_memory.md R28. -/

namespace Sys2Proof.Machine

/-- The 11-bit identifier (R115, R116): `(inv << 10) | (uid << 3) | (per << 2) | (mot << 1) | pow`, the flag positions
those of `o` (90_conflicts.md C1). -/
def identifier (o : Config.FlagOrder) (p : Priority) (da : DeviceAddress) : BitVec 11 :=
  (flagBit 11 (!p.bit) <<< 10) ||| (da.uniqueId.setWidth 11 <<< 3) |||
    (flagBit 11 da.peripheral <<< peripheralPos o) ||| (flagBit 11 da.motor <<< 1) |||
    (flagBit 11 da.power <<< powerPos o)

/-- HDRENC (R116). -/
def execHdrenc (p : Priority) (da : DeviceAddress) (s : State) : Result :=
  respond (zext32 (identifier Config.hdrFlagOrder p da)) s

/-- HDRDEC (R117): `r = (P << 16) | id[9:0]` with `P = 1 - id[10]`, HDRENC's operand format. -/
def execHdrdec (id : BitVec 11) (s : State) : Result :=
  respond ((flagBit 32 (!id.getLsbD 10) <<< 16) ||| zext32 (id.extractLsb' 0 10)) s

/-- DLCENC (R118). -/
def execDlcenc (contentLength : Nat) (s : State) : Result :=
  if contentLength > Config.maxContent then raise .contractViolation s
  else respond (BitVec.ofNat 32 (contentLength + 2)) s

/-- DLCDEC (R119). -/
def execDlcdec (dlc : Nat) (s : State) : Result :=
  if dlc < 2 ∨ dlc > 8 then raise .malformedFrame s
  else respond (BitVec.ofNat 32 (dlc - 2)) s

/-! ## The data section (20_memory.md R28) and the command byte (10_state.md R18) -/

/-- `BUF[0]`. -/
def State.commandByte (s : State) : Byte := s.bufByte 0

/-- `BUF[1]`. -/
def State.senderIdByte (s : State) : Byte := s.bufByte 1

/-- `content[i]` = `BUF[2 + i]`. -/
def State.contentByte (s : State) (i : Nat) : Byte := s.bufByte (2 + i)

/-- `command[7]`: acknowledgement requested. -/
def ackRequested (command : Byte) : Bool := command.getLsbD 7

/-- `command[6:0]`: the command code. -/
def commandCode (command : Byte) : BitVec 7 := command.extractLsb' 0 7

end Sys2Proof.Machine
end

