-- ==== Sys2Proof/Machine/LoadStore.lean ====
section
/-! DEFINITION. The little-endian load/store unit (41_loadstore.md). -/

namespace Sys2Proof.Machine

/-- LDU8 (R61). -/
def execLdu8 (off : Nat) (s : State) : Result := load off 1 (fun v => zext32 (BitVec.ofNat 8 v)) s

/-- LDU16 (R62). -/
def execLdu16 (off : Nat) (s : State) : Result := load off 2 (fun v => zext32 (BitVec.ofNat 16 v)) s

/-- LDU24 (R63). -/
def execLdu24 (off : Nat) (s : State) : Result := load off 3 (fun v => zext32 (BitVec.ofNat 24 v)) s

/-- LDU32 (R64). -/
def execLdu32 (off : Nat) (s : State) : Result := load off 4 (fun v => BitVec.ofNat 32 v) s

/-- LDI16 (R65). -/
def execLdi16 (off : Nat) (s : State) : Result := load off 2 (fun v => sext32 (BitVec.ofNat 16 v)) s

/-- LDI24 (R66). -/
def execLdi24 (off : Nat) (s : State) : Result := load off 3 (fun v => sext32 (BitVec.ofNat 24 v)) s

/-- LDI32 (R67): the same 32 bits as LDU32. -/
def execLdi32 (off : Nat) (s : State) : Result := load off 4 (fun v => BitVec.ofNat 32 v) s

/-- STU8 (R68). -/
def execStu8 (off : Nat) (v : BitVec 8) (s : State) : Result := store off 1 v.toNat s

/-- STU16 (R69). -/
def execStu16 (off : Nat) (v : BitVec 16) (s : State) : Result := store off 2 v.toNat s

/-- STU24 (R70). -/
def execStu24 (off : Nat) (v : BitVec 24) (s : State) : Result := store off 3 v.toNat s

/-- STU32 (R71). -/
def execStu32 (off : Nat) (v : BitVec 32) (s : State) : Result := store off 4 v.toNat s

/-- STI16 (R72): the two's-complement pattern, unchanged. -/
def execSti16 (off : Nat) (v : BitVec 16) (s : State) : Result := store off 2 v.toNat s

/-- STI24 (R73). -/
def execSti24 (off : Nat) (v : BitVec 24) (s : State) : Result := store off 3 v.toNat s

/-- STI32 (R74). -/
def execSti32 (off : Nat) (v : BitVec 32) (s : State) : Result := store off 4 v.toNat s

end Sys2Proof.Machine
end

