-- ==== Sys2Proof/Machine/Unorm.lean ====
section
/-! DEFINITION. The UNorm8, UNorm16 and UNorm24 quantizer and dequantizer (43_unorm.md), in exact integer arithmetic. -/

namespace Sys2Proof.Machine

/-! ## Dequantize -/

/-- The smallest `t' ≥ t` with `n * 2^t' ≥ max`, searched for `fuel` values (R100: `e = -t'`). -/
def unormShift (max n : Nat) : (fuel t : Nat) → Nat
  | 0, t => t
  | fuel + 1, t => if n * 2 ^ t ≥ max then t else unormShift max n fuel (t + 1)

/-- `unorm_dec(n, N)` (R100): the binary32 pattern nearest to `n / max`. -/
def unormDec (N n : Nat) : Word :=
  let max := Config.unormMax N
  if n = 0 then 0x00000000
  else if n = max then 0x3F800000
  else
    let t := unormShift max n N 1
    let num := n * 2 ^ (23 + t)
    let q := num / max
    let q := if 2 * (num % max) > max then q + 1 else q
    if q = 2 ^ 24 then BitVec.ofNat 32 ((127 - t + 1) <<< 23)
    else BitVec.ofNat 32 (((127 - t) <<< 23) + (q - 2 ^ 23))

/-! ## Quantize -/

/-- `m / 2^k` rounded to 24 significant bits, ties to even, as a numerator over the same `2^k` (93 U3's `RNE32` on
the range the quantizer meets, where no binary32 result is subnormal or infinite). -/
def roundSig24 (m : Nat) : Nat :=
  let d := Nat.log2 m + 1 - 24
  let q := m / 2 ^ d
  let rem := m % 2 ^ d
  let up := 2 * rem > 2 ^ d ∨ (2 * rem = 2 ^ d ∧ q % 2 = 1)
  (if up then q + 1 else q) * 2 ^ d

/-- The rounded integer before the source's final clamp, for `val(x) = sig / 2^k` (R101; 93 U3 for `binary32`). -/
def unormRound (arith : Config.UnormArith) (max sig k : Nat) : Nat :=
  match arith with
  | .exact => (2 * sig * max + 2 ^ k) / 2 ^ (k + 1)
  | .binary32 =>
    let p := roundSig24 (sig * max)
    let t := roundSig24 (2 * p + 2 ^ k)
    t / 2 ^ (k + 1)

/-- `unorm_enc(x, N)` (R101): NaN and every non-positive value give 0 (92 D20), values from 1.0 up give `max`. -/
def unormEnc (arith : Config.UnormArith) (N : Nat) (x : Word) : Nat :=
  let max := Config.unormMax N
  if isNaN32 x then 0
  else if signBit x = 1 then 0
  else if expField x ≥ 127 then max
  else if expField x = 0 then 0
  else
    let n := unormRound arith max (2 ^ 23 + manField x) (150 - expField x)
    if n > max then max else n

/-! ## The operations -/

/-- UN8DEC (R102). -/
def execUn8dec (wire : BitVec 8) (s : State) : Result := respond (unormDec 8 wire.toNat) s

/-- UN16DEC (R103). -/
def execUn16dec (wire : BitVec 16) (s : State) : Result := respond (unormDec 16 wire.toNat) s

/-- UN24DEC (R104). -/
def execUn24dec (wire : BitVec 24) (s : State) : Result := respond (unormDec 24 wire.toNat) s

/-- UN8ENC (R105). -/
def execUn8enc (x : Word) (s : State) : Result :=
  respond (BitVec.ofNat 32 (unormEnc Config.unormEncArith 8 x)) s

/-- UN16ENC (R106). -/
def execUn16enc (x : Word) (s : State) : Result :=
  respond (BitVec.ofNat 32 (unormEnc Config.unormEncArith 16 x)) s

/-- UN24ENC (R107). -/
def execUn24enc (x : Word) (s : State) : Result :=
  respond (BitVec.ofNat 32 (unormEnc Config.unormEncArith 24 x)) s

end Sys2Proof.Machine
end

