-- ==== Sys2Proof/Machine/Dispatch.lean ====
section
/-! DEFINITION. The meaning of each instruction: one arm per constructor, in the opcode table's order. -/

namespace Sys2Proof.Machine

def exec (i : Instr) (s : State) : Host.Outcome State Fault Refusal :=
  match i with
  | .hostle => Sys2Proof.Machine.execHostle s
  | .bflsb => Sys2Proof.Machine.execBflsb s
  | .bswap16 v => Sys2Proof.Machine.execBswap16 v s
  | .bswap32 v => Sys2Proof.Machine.execBswap32 v s
  | .clz16 v => Sys2Proof.Machine.execClz16 v s
  | .ldu8 off => Sys2Proof.Machine.execLdu8 off s
  | .ldu16 off => Sys2Proof.Machine.execLdu16 off s
  | .ldu24 off => Sys2Proof.Machine.execLdu24 off s
  | .ldu32 off => Sys2Proof.Machine.execLdu32 off s
  | .ldi16 off => Sys2Proof.Machine.execLdi16 off s
  | .ldi24 off => Sys2Proof.Machine.execLdi24 off s
  | .ldi32 off => Sys2Proof.Machine.execLdi32 off s
  | .stu8 off v => Sys2Proof.Machine.execStu8 off v s
  | .stu16 off v => Sys2Proof.Machine.execStu16 off v s
  | .stu24 off v => Sys2Proof.Machine.execStu24 off v s
  | .stu32 off v => Sys2Proof.Machine.execStu32 off v s
  | .sti16 off v => Sys2Proof.Machine.execSti16 off v s
  | .sti24 off v => Sys2Proof.Machine.execSti24 off v s
  | .sti32 off v => Sys2Proof.Machine.execSti32 off v s
  | .f32dec wire => Sys2Proof.Machine.execF32dec wire s
  | .f16dec wire => Sys2Proof.Machine.execF16dec wire s
  | .bf16dec wire => Sys2Proof.Machine.execBf16dec wire s
  | .bf24dec wire => Sys2Proof.Machine.execBf24dec wire s
  | .un8dec wire => Sys2Proof.Machine.execUn8dec wire s
  | .un16dec wire => Sys2Proof.Machine.execUn16dec wire s
  | .un24dec wire => Sys2Proof.Machine.execUn24dec wire s
  | .f32enc x => Sys2Proof.Machine.execF32enc x s
  | .f16enc x => Sys2Proof.Machine.execF16enc x s
  | .bf16enc x => Sys2Proof.Machine.execBf16enc x s
  | .bf24enc x => Sys2Proof.Machine.execBf24enc x s
  | .un8enc x => Sys2Proof.Machine.execUn8enc x s
  | .un16enc x => Sys2Proof.Machine.execUn16enc x s
  | .un24enc x => Sys2Proof.Machine.execUn24enc x s
  | .hdrenc p da => Sys2Proof.Machine.execHdrenc p da s
  | .hdrdec id => Sys2Proof.Machine.execHdrdec id s
  | .dlcenc len => Sys2Proof.Machine.execDlcenc len s
  | .dlcdec dlc => Sys2Proof.Machine.execDlcdec dlc s

end Sys2Proof.Machine
end

