-- ==== Sys2Proof/Machine/Requests.lean ====
section
/-! DEFINITION. What one step does with the thing it takes from the request port. -/

namespace Sys2Proof.Machine

/-- The machine once a step has taken the oldest input: `rest` still waits, and the response of the step before is
delivered and held nowhere (10_state.md R13; DESIGN CHOICE, log entry 5). -/
def State.taken (s : State) (rest : List Input) : State := { s with inputs := rest, rsp := none }

/-- Performs one request word (30_encoding.md R35): decode, then the operation; a reserved `op` raises
ContractViolation before any other check (R39, 60_exceptions.md R136). -/
def performWord (w : ReqWord) (s : State) : Result :=
  match decode w with
  | .ok i => exec i s
  | .error _ => raise .contractViolation s

/-- What the machine does with one act of the outside. -/
def serve (input : Input) (s : State) : Result :=
  match input with
  | .request w => performWord w s
  | .bufWrite off b => .next (s.outsideWrite off.val b)
  | .reset => .next s.afterReset
  | .contended _ => .refused .aliasedBuffer

/-- With nothing presented the block is idle (DESIGN CHOICE, log entry 6). -/
def idle (s : State) : Result := .next (s.taken [])

/-- The requester presents a request word ahead of everything else it will do. -/
def State.present (s : State) (w : ReqWord) : State := { s with inputs := .request w :: s.inputs }

/-- The request word a table word stands for: its low `nbits` bits, on the 48-bit port (DEDUCED, log
entry 12). -/
def tableRequest (nbits w : Nat) : ReqWord := BitVec.ofNat 48 (w % 2 ^ nbits)

end Sys2Proof.Machine
end

