-- ==== Sys2Proof/Machine/Step.lean ====
section
/-! DEFINITION. One step: the next thing the outside does, taken from the request port. -/

namespace Sys2Proof.Machine

/-- One step: takes the oldest input and serves it, in the order presented (20_memory.md R29). -/
def step (s : State) : Host.Outcome State Fault Refusal :=
  match s.inputs with
  | [] => idle s
  | input :: rest => serve input (s.taken rest)

/-- `s` with the table word `w` presented before everything else, so that the next step performs it (log entries 4
and 12). -/
def State.withFetchWord (s : State) (nbits w : Nat) : State := s.present (tableRequest nbits w)

end Sys2Proof.Machine
end

