-- ==== Sys2Proof/Machine/Instances.lean ====
section
/-! DEFINITION. Several instances, each with its own BUF (20_memory.md R32). Two instances on one BUF are outside the
contract: "a model refuses it" (92 D32, 93 U4). -/

namespace Sys2Proof.Machine

/-- An instance and the number of the BUF it is attached to. The bytes of that BUF are in the instance's state. -/
structure Attached where
  buffer  : Nat
  machine : State
  deriving DecidableEq, Repr

/-- Any number of instances at once; they share nothing. The unknown bytes of two instances at the same `epoch` are
nevertheless the same free values (DESIGN CHOICE, log entry 22). -/
abbrev System := List Attached

/-- "Each operates on its own buffer": no two instances are attached to one BUF. -/
abbrev System.ownBuffers (sys : System) : Prop := (sys.map (·.buffer)).Nodup

/-- Instance `k` takes a step, the others none. A system in which two instances are attached to one BUF is refused, and
so is a step that the instance alone would be refused (93 U4, log entry 7). Where there is no instance `k` nothing
happens (DESIGN CHOICE, log entry 17). -/
def System.stepAt (sys : System) (k : Nat) : Host.Outcome System Fault Refusal :=
  if sys.ownBuffers then
    match sys[k]? with
    | none => .next sys
    | some a =>
      match step a.machine with
      | .next t => .next (sys.set k { a with machine := t })
      | .fault f => .fault f
      | .refused r => .refused r
  else .refused .aliasedBuffer

/-- The instances take steps in the order a schedule names them, up to the first step that has no next state. -/
def System.run : (schedule : List Nat) → System → Host.Outcome System Fault Refusal
  | [], sys => .next sys
  | k :: schedule, sys =>
    match sys.stepAt k with
    | .next sys' => System.run schedule sys'
    | .fault f => .fault f
    | .refused r => .refused r

end Sys2Proof.Machine
end

