-- ==== Sys2Proof/Machine/Assembler.lean ====
section
/-! DEFINITION. The requester's assembler (30_encoding.md R40, R41): lines of tokens, request words, scripts with `$k`
(DESIGN CHOICE, log entry 16). The block knows nothing of it. -/

namespace Sys2Proof.Machine

/-- The mnemonics of R37. -/
inductive Mnemonic
  | hostle | bflsb | bswap16 | bswap32 | clz16
  | ldu8 | ldu16 | ldu24 | ldu32 | ldi16 | ldi24 | ldi32
  | stu8 | stu16 | stu24 | stu32 | sti16 | sti24 | sti32
  | f32dec | f16dec | bf16dec | bf24dec | un8dec | un16dec | un24dec
  | f32enc | f16enc | bf16enc | bf24enc | un8enc | un16enc | un24enc
  | hdrenc | hdrdec | dlcenc | dlcdec
  deriving DecidableEq, Repr

/-- The `op` column of R37. -/
def Mnemonic.op : Mnemonic → BitVec 8
  | .hostle => 0x01
  | .bflsb => 0x02
  | .bswap16 => 0x03
  | .bswap32 => 0x04
  | .clz16 => 0x05
  | .ldu8 => 0x10
  | .ldu16 => 0x11
  | .ldu24 => 0x12
  | .ldu32 => 0x13
  | .ldi16 => 0x15
  | .ldi24 => 0x16
  | .ldi32 => 0x17
  | .stu8 => 0x20
  | .stu16 => 0x21
  | .stu24 => 0x22
  | .stu32 => 0x23
  | .sti16 => 0x25
  | .sti24 => 0x26
  | .sti32 => 0x27
  | .f32dec => 0x30
  | .f16dec => 0x31
  | .bf16dec => 0x32
  | .bf24dec => 0x33
  | .un8dec => 0x34
  | .un16dec => 0x35
  | .un24dec => 0x36
  | .f32enc => 0x40
  | .f16enc => 0x41
  | .bf16enc => 0x42
  | .bf24enc => 0x43
  | .un8enc => 0x44
  | .un16enc => 0x45
  | .un24enc => 0x46
  | .hdrenc => 0x50
  | .hdrdec => 0x51
  | .dlcenc => 0x52
  | .dlcdec => 0x53

/-- The operand forms of R40. -/
inductive AsmForm
  | bare         -- `MNEMONIC`
  | value        -- `MNEMONIC value`
  | offset       -- `MNEMONIC off`
  | offsetValue  -- `MNEMONIC off, value`
  | header       -- `HDRENC prio, uid, per, mot, pow`, or `HDRENC value`
  deriving DecidableEq, Repr

/-- Which form a mnemonic takes (R40). -/
def Mnemonic.form : Mnemonic → AsmForm
  | .hostle => .bare
  | .bflsb => .bare
  | .bswap16 => .value
  | .bswap32 => .value
  | .clz16 => .value
  | .ldu8 => .offset
  | .ldu16 => .offset
  | .ldu24 => .offset
  | .ldu32 => .offset
  | .ldi16 => .offset
  | .ldi24 => .offset
  | .ldi32 => .offset
  | .stu8 => .offsetValue
  | .stu16 => .offsetValue
  | .stu24 => .offsetValue
  | .stu32 => .offsetValue
  | .sti16 => .offsetValue
  | .sti24 => .offsetValue
  | .sti32 => .offsetValue
  | .f32dec => .value
  | .f16dec => .value
  | .bf16dec => .value
  | .bf24dec => .value
  | .un8dec => .value
  | .un16dec => .value
  | .un24dec => .value
  | .f32enc => .value
  | .f16enc => .value
  | .bf16enc => .value
  | .bf24enc => .value
  | .un8enc => .value
  | .un16enc => .value
  | .un24enc => .value
  | .hdrenc => .header
  | .hdrdec => .value
  | .dlcenc => .value
  | .dlcdec => .value

/-- One operand as written (R40, R41). -/
inductive AsmOperand
  /-- A number. -/
  | num (v : Nat)
  /-- The word `LOW` or `HIGH`. -/
  | prio (p : Priority)
  /-- `$k`: the result of the script's `k`-th response, counted from 1. -/
  | result (k : Nat)
  /-- `$k[hi:lo]`. -/
  | slice (k hi lo : Nat)
  /-- `f32(v)` for the exactly representable `v = ± m / 2^k`. -/
  | float (negative : Bool) (m k : Nat)
  deriving DecidableEq, Repr

/-- A line of a script: a mnemonic and its operands. -/
structure AsmLine where
  mnemonic : Mnemonic
  operands : List AsmOperand
  deriving DecidableEq, Repr

/-- The binary32 pattern of the number `± m / 2^k`, if binary32 represents it exactly (R41): zero, a normal number, or a
subnormal one. -/
def floatLiteral (negative : Bool) (m k : Nat) : Option Nat :=
  let sign := negative.toNat * 2 ^ 31
  let top := Nat.log2 m
  if m = 0 then some sign
  else if k < 127 + top then
    if top + 127 - k ≤ 254 ∧ m * 2 ^ 23 % 2 ^ top = 0 then
      some (sign + (top + 127 - k) * 2 ^ 23 + (m * 2 ^ 23 / 2 ^ top - 2 ^ 23))
    else none
  else if m * 2 ^ 149 % 2 ^ k = 0 then some (sign + m * 2 ^ 149 / 2 ^ k)
  else none

/-- `$k`, among the results so far. -/
def scriptResult (results : List Word) (k : Nat) : Option Word :=
  match k with
  | 0 => none
  | k + 1 => results[k]?

/-- The number an operand stands for, given the results of the script so far (R41: "the requester performs this
substitution"). -/
def AsmOperand.number (results : List Word) : AsmOperand → Option Nat
  | .num v => some v
  | .prio _ => none
  | .result k => (scriptResult results k).map (·.toNat)
  | .slice k hi lo =>
    if lo ≤ hi ∧ hi < 32 then (scriptResult results k).map fun r => r.toNat / 2 ^ lo % 2 ^ (hi - lo + 1) else none
  | .float negative m k => floatLiteral negative m k

/-- The request word of the fields, if each number fits its field (R35, R40). -/
def requestOfNumbers (op : BitVec 8) (off a : Option Nat) : Option ReqWord :=
  match off, a with
  | some off, some a =>
    if off < 2 ^ 8 ∧ a < 2 ^ 32 then some (reqWord op (BitVec.ofNat 8 off) (BitVec.ofNat 32 a)) else none
  | _, _ => none

/-- HDRENC's operand from its five-operand form (R40): `(P << 16) | (uid << 3) | (per << 2) | (mot << 1) | pow`. -/
def headerNumber (p : Priority) (uid per mot pow : Option Nat) : Option Nat :=
  match uid, per, mot, pow with
  | some uid, some per, some mot, some pow =>
    if uid < 128 ∧ per < 2 ∧ mot < 2 ∧ pow < 2 then
      some (headerOperand p ⟨BitVec.ofNat 7 uid, per == 1, mot == 1, pow == 1⟩).toNat
    else none
  | _, _, _, _ => none

/-- Assembles one line (R40); none for a line that is not of its mnemonic's form. -/
def assemble (results : List Word) (line : AsmLine) : Option ReqWord :=
  let op := line.mnemonic.op
  match line.mnemonic.form, line.operands with
  | .bare, [] => requestOfNumbers op (some 0) (some 0)
  | .value, [v] => requestOfNumbers op (some 0) (v.number results)
  | .offset, [off] => requestOfNumbers op (off.number results) (some 0)
  | .offsetValue, [off, v] => requestOfNumbers op (off.number results) (v.number results)
  | .header, [.prio p, uid, per, mot, pow] =>
    requestOfNumbers op (some 0)
      (headerNumber p (uid.number results) (per.number results) (mot.number results) (pow.number results))
  | .header, [v] => requestOfNumbers op (some 0) (v.number results)
  | _, _ => none

/-- Runs a script: each line is assembled with the results so far, presented and performed. A fault does not stop it
(60_exceptions.md R138). None if a line does not assemble or the machine stops. -/
def runScript : (script : List AsmLine) → (results : List Word) → State → Option (List Response × State)
  | [], _, s => some ([], s)
  | line :: script, results, s =>
    match assemble results line with
    | none => none
    | some w =>
      match step (s.present w) with
      | .next t =>
        match t.rsp with
        | some p => (runScript script (results ++ [p.r]) t).map fun (ps, u) => (p :: ps, u)
        | none => none
      | .fault _ => none
      | .refused _ => none

/-! ## The textual form of words (R40) -/

/-- One hexadecimal digit. -/
def hexDigit (d : Nat) : Char := if d < 10 then Char.ofNat (48 + d) else Char.ofNat (55 + d)

/-- `digits` hexadecimal digits, most significant first. -/
def hexDigits : (digits n : Nat) → List Char
  | 0, _ => []
  | digits + 1, n => hexDigits digits (n / 16) ++ [hexDigit (n % 16)]

/-- A request "written as 12 hexadecimal digits". -/
def requestText (w : ReqWord) : List Char := '0' :: 'x' :: hexDigits 12 w.toNat

/-- The name of a status (60_exceptions.md R130). -/
def Status.text : Status → List Char
  | .ok => "OK".toList
  | .malformedFrame => "MalformedFrame".toList
  | .contractViolation => "ContractViolation".toList

/-- The disassembly of a response: `status r`. -/
def Response.text (p : Response) : List Char := p.status.text ++ [' ', '0', 'x'] ++ hexDigits 8 p.r.toNat

end Sys2Proof.Machine
end

