-- ==== Sys2Proof/Machine/Requester.lean ====
section
/-! DEFINITION. The requester's fixed sequences: the pseudo-instructions of 30_encoding.md R42 and the frame sequences of
44_header.md R123 and R124. Each is a run of ordinary requests through `step`. -/

namespace Sys2Proof.Machine

/-- How a sequence of requests ends. -/
inductive Run (α : Type)
  /-- Every request was answered OK. -/
  | done (value : α) (s : State)
  /-- A request was answered with a non-zero status: "the requester stops the expansion there" (R42). -/
  | stopped (p : Response) (s : State)
  /-- The machine gave no next state. -/
  | halted
  deriving DecidableEq, Repr

/-- Goes on after a request that was answered OK. -/
def Run.andThen {α β : Type} : Run α → (α → State → Run β) → Run β
  | .done v s, f => f v s
  | .stopped p s, _ => .stopped p s
  | .halted, _ => .halted

/-- Presents one request and reads its response. -/
def ask (m : Mnemonic) (off : BitVec 8) (a : Word) (s : State) : Run Word :=
  match step (s.present (reqWord m.op off a)) with
  | .next t =>
    match t.rsp with
    | some ⟨.ok, r⟩ => .done r t
    | some p => .stopped p t
    | none => .halted
  | .fault _ => .halted
  | .refused _ => .halted

/-! ## PUT* and GET* (R42) -/

/-- An encode request, then a store of its result. -/
def putWith (enc st : Mnemonic) (off : BitVec 8) (x : Word) (s : State) : Run Word :=
  (ask enc 0 x s).andThen fun t => ask st off t

/-- A load request, then a decode of its result. -/
def getWith (ld dec : Mnemonic) (off : BitVec 8) (s : State) : Run Word :=
  (ask ld off 0 s).andThen fun t => ask dec 0 t

def putF32 (off : BitVec 8) (x : Word) (s : State) : Run Word := putWith .f32enc .stu32 off x s
def putF16 (off : BitVec 8) (x : Word) (s : State) : Run Word := putWith .f16enc .stu16 off x s
def putBf16 (off : BitVec 8) (x : Word) (s : State) : Run Word := putWith .bf16enc .stu16 off x s
def putBf24 (off : BitVec 8) (x : Word) (s : State) : Run Word := putWith .bf24enc .stu24 off x s
def putUn8 (off : BitVec 8) (x : Word) (s : State) : Run Word := putWith .un8enc .stu8 off x s
def putUn16 (off : BitVec 8) (x : Word) (s : State) : Run Word := putWith .un16enc .stu16 off x s
def putUn24 (off : BitVec 8) (x : Word) (s : State) : Run Word := putWith .un24enc .stu24 off x s
def getF32 (off : BitVec 8) (s : State) : Run Word := getWith .ldu32 .f32dec off s
def getF16 (off : BitVec 8) (s : State) : Run Word := getWith .ldu16 .f16dec off s
def getBf16 (off : BitVec 8) (s : State) : Run Word := getWith .ldu16 .bf16dec off s
def getBf24 (off : BitVec 8) (s : State) : Run Word := getWith .ldu24 .bf24dec off s
def getUn8 (off : BitVec 8) (s : State) : Run Word := getWith .ldu8 .un8dec off s
def getUn16 (off : BitVec 8) (s : State) : Run Word := getWith .ldu16 .un16dec off s
def getUn24 (off : BitVec 8) (s : State) : Run Word := getWith .ldu24 .un24dec off s

/-! ## Frames (44_header.md R123, R124) -/

/-- A Packet record (10_state.md R17). `contentLength` is the "number of meaningful bytes in `content`", which is a
"fixed 6-byte buffer; bytes beyond `contentLength` are undefined/ignored by the receiver". -/
structure Packet where
  destination   : DeviceAddress
  priority      : Priority
  senderId      : Byte
  command       : Byte
  contentLength : Nat
  content       : Vector Byte Config.maxContent
  deriving DecidableEq, Repr

/-- The meaningful bytes: `content[0 .. contentLength-1]`. -/
def Packet.meaningful (p : Packet) : List Byte := p.content.toList.take p.contentLength

/-- "Invariant: `contentLength ≤ 6`" (10_state.md R17). -/
abbrev Packet.wf (p : Packet) : Prop := p.contentLength ≤ Config.maxContent

/-- The same record to every receiver: equal in all but the bytes beyond `contentLength`, which are "undefined/ignored"
(10_state.md R17, 44_header.md R125). -/
structure Packet.Agrees (p q : Packet) : Prop where
  destination : p.destination = q.destination
  priority : p.priority = q.priority
  senderId : p.senderId = q.senderId
  command : p.command = q.command
  contentLength : p.contentLength = q.contentLength
  content : ∀ (i : Nat) (h : i < Config.maxContent), i < p.contentLength → p.content[i] = q.content[i]

/-- What crosses the boundary to the driver (10_state.md R19): identifier, DLC and data bytes. -/
structure Frame where
  id   : BitVec 11
  dlc  : Nat
  data : List Byte
  deriving DecidableEq, Repr

/-- `STU8 2+i, content[i]` for each byte, from index `i` on. -/
def storeContent : (bytes : List Byte) → (i : Nat) → State → Run Unit
  | [], _, s => .done () s
  | b :: bytes, i, s =>
    (ask .stu8 (BitVec.ofNat 8 (2 + i)) (zext32 b) s).andThen fun _ => storeContent bytes (i + 1)

/-- `LDU8 2+i` for `count` bytes, from index `i` on. -/
def loadContent : (count i : Nat) → State → Run (List Byte)
  | 0, _, s => .done [] s
  | count + 1, i, s =>
    (ask .ldu8 (BitVec.ofNat 8 (2 + i)) 0 s).andThen fun r s =>
      (loadContent count (i + 1) s).andThen fun bytes s => .done (r.extractLsb' 0 8 :: bytes) s

/-- PKTSER (R123): what the driver takes is the identifier `$1[10:0]`, the DLC `$2[7:0]` and `BUF[0 .. dlc-1]`. -/
def pktser (p : Packet) (s : State) : Run Frame :=
  (ask .hdrenc 0 (headerOperand p.priority p.destination) s).andThen fun id s =>
  (ask .dlcenc 0 (BitVec.ofNat 32 p.contentLength) s).andThen fun dlc s =>
  (ask .stu8 0 (zext32 p.command) s).andThen fun _ s =>
  (ask .stu8 1 (zext32 p.senderId) s).andThen fun _ s =>
  (storeContent p.meaningful 0 s).andThen fun _ s =>
  let dlc := (dlc.extractLsb' 0 8).toNat
  .done ⟨id.extractLsb' 0 11, dlc, (List.range dlc).map s.bufByte⟩ s

/-- The content of a received record: the bytes that were loaded, and beyond them the bytes of `beyond`. -/
def fillContent (loaded : List Byte) (beyond : Vector Byte Config.maxContent) : Vector Byte Config.maxContent :=
  Vector.ofFn fun i => (loaded[i.val]?).getD beyond[i]

/-- PKTDES (R124), the frame's data bytes standing in BUF: the DLC check comes first. "`content[i]` for
`i >= contentLength` may be anything": those bytes are the argument `beyond`, which nothing constrains (log entry 14). -/
def pktdes (id : BitVec 11) (dlc : Nat) (beyond : Vector Byte Config.maxContent) (s : State) : Run Packet :=
  (ask .dlcdec 0 (BitVec.ofNat 32 dlc) s).andThen fun len s =>
  (ask .hdrdec 0 (zext32 id) s).andThen fun header s =>
  (ask .ldu8 0 0 s).andThen fun command s =>
  (ask .ldu8 1 0 s).andThen fun sender s =>
  (loadContent len.toNat 0 s).andThen fun content s =>
  .done
    { destination := unpackAddress Config.hdrFlagOrder (header.extractLsb' 0 10)
      priority := .ofBit (header.getLsbD 16)
      senderId := sender.extractLsb' 0 8
      command := command.extractLsb' 0 8
      contentLength := len.toNat
      content := fillContent content beyond } s

/-- The driver places received data bytes in BUF from offset `off` on, between requests (R124, 20_memory.md R31); BUF
holds no byte beyond its eighth (DESIGN CHOICE, log entry 19). -/
def deliver : (data : List Byte) → (off : Nat) → State → State
  | [], _, s => s
  | b :: data, off, s => if off < Config.bufBytes then deliver data (off + 1) (s.outsideWrite off b) else s

/-- Receives a frame: the driver's part, then PKTDES. -/
def receive (f : Frame) (beyond : Vector Byte Config.maxContent) (s : State) : Run Packet :=
  pktdes f.id f.dlc beyond (deliver f.data 0 s)

end Sys2Proof.Machine
end

