-- ==== Sys2Proof/Safety.lean ====
section
/-! DEFINITION. What counts as a safe state, a safe run and a contract kept, in the terms the statements use. -/

namespace Sys2Proof.Machine

/-- A response as every response of the block is: `r = 0` whenever the status is not OK (30_encoding.md R36). -/
abbrev Response.wf (p : Response) : Prop := p.status ≠ .ok → p.r = 0

/-- The invariant of the machine: BUF is in its canonical form, inside its 8 offsets, and the response standing at the
port, if any, is well-formed. -/
def State.Inv (s : State) : Prop := s.buf.wf ∧ ∀ p, s.rsp = some p → p.wf

/-- An input the model gives a behaviour to: all but a contended request (93 U4). -/
def Input.uncontended : Input → Bool
  | .request _ => true
  | .bufWrite _ _ => true
  | .reset => true
  | .contended _ => false

/-- A safe run: the machine goes on for `n` steps. -/
def SafeRun (n : Nat) (s : State) : Prop := ∃ t, Sys2Proof.core.run n s = .next t

/-- The requester's duties that an operation checks (70_reset_and_hazards.md R153, R154, and the DLC range of 44_header.md
R119): exactly then it is answered OK. -/
def contractKept : Instr → Bool
  | .ldu8 off => decide (off + 1 ≤ 8)
  | .ldu16 off => decide (off + 2 ≤ 8)
  | .ldu24 off => decide (off + 3 ≤ 8)
  | .ldu32 off => decide (off + 4 ≤ 8)
  | .ldi16 off => decide (off + 2 ≤ 8)
  | .ldi24 off => decide (off + 3 ≤ 8)
  | .ldi32 off => decide (off + 4 ≤ 8)
  | .stu8 off _ => decide (off + 1 ≤ 8)
  | .stu16 off _ => decide (off + 2 ≤ 8)
  | .stu24 off _ => decide (off + 3 ≤ 8)
  | .stu32 off _ => decide (off + 4 ≤ 8)
  | .sti16 off _ => decide (off + 2 ≤ 8)
  | .sti24 off _ => decide (off + 3 ≤ 8)
  | .sti32 off _ => decide (off + 4 ≤ 8)
  | .dlcenc len => decide (len ≤ 6)
  | .dlcdec dlc => decide (2 ≤ dlc) && decide (dlc ≤ 8)
  | .hostle => true
  | .bflsb => true
  | .bswap16 _ => true
  | .bswap32 _ => true
  | .clz16 _ => true
  | .f32dec _ => true
  | .f16dec _ => true
  | .bf16dec _ => true
  | .bf24dec _ => true
  | .un8dec _ => true
  | .un16dec _ => true
  | .un24dec _ => true
  | .f32enc _ => true
  | .f16enc _ => true
  | .bf16enc _ => true
  | .bf24enc _ => true
  | .un8enc _ => true
  | .un16enc _ => true
  | .un24enc _ => true
  | .hdrenc _ _ => true
  | .hdrdec _ => true

/-- The bytes of BUF an operation writes when its contract is kept (41_loadstore.md R68 to R75): how many from its offset
on, none for every operation but a store. -/
def storedBytes : Instr → Option (Nat × Nat)
  | .stu8 off _ => some (off, 1)
  | .stu16 off _ => some (off, 2)
  | .stu24 off _ => some (off, 3)
  | .stu32 off _ => some (off, 4)
  | .sti16 off _ => some (off, 2)
  | .sti24 off _ => some (off, 3)
  | .sti32 off _ => some (off, 4)
  | .hostle => none
  | .bflsb => none
  | .bswap16 _ => none
  | .bswap32 _ => none
  | .clz16 _ => none
  | .ldu8 _ => none
  | .ldu16 _ => none
  | .ldu24 _ => none
  | .ldu32 _ => none
  | .ldi16 _ => none
  | .ldi24 _ => none
  | .ldi32 _ => none
  | .f32dec _ => none
  | .f16dec _ => none
  | .bf16dec _ => none
  | .bf24dec _ => none
  | .un8dec _ => none
  | .un16dec _ => none
  | .un24dec _ => none
  | .f32enc _ => none
  | .f16enc _ => none
  | .bf16enc _ => none
  | .bf24enc _ => none
  | .un8enc _ => none
  | .un16enc _ => none
  | .un24enc _ => none
  | .hdrenc _ _ => none
  | .hdrdec _ => none
  | .dlcenc _ => none
  | .dlcdec _ => none

/-- The bytes of BUF an operation reads when its contract is kept (41_loadstore.md R61 to R67): how many from its offset
on, none for every operation but a load. -/
def loadedBytes : Instr → Option (Nat × Nat)
  | .ldu8 off => some (off, 1)
  | .ldu16 off => some (off, 2)
  | .ldu24 off => some (off, 3)
  | .ldu32 off => some (off, 4)
  | .ldi16 off => some (off, 2)
  | .ldi24 off => some (off, 3)
  | .ldi32 off => some (off, 4)
  | .hostle => none
  | .bflsb => none
  | .bswap16 _ => none
  | .bswap32 _ => none
  | .clz16 _ => none
  | .stu8 _ _ => none
  | .stu16 _ _ => none
  | .stu24 _ _ => none
  | .stu32 _ _ => none
  | .sti16 _ _ => none
  | .sti24 _ _ => none
  | .sti32 _ _ => none
  | .f32dec _ => none
  | .f16dec _ => none
  | .bf16dec _ => none
  | .bf24dec _ => none
  | .un8dec _ => none
  | .un16dec _ => none
  | .un24dec _ => none
  | .f32enc _ => none
  | .f16enc _ => none
  | .bf16enc _ => none
  | .bf24enc _ => none
  | .un8enc _ => none
  | .un16enc _ => none
  | .un24enc _ => none
  | .hdrenc _ _ => none
  | .hdrdec _ => none
  | .dlcenc _ => none
  | .dlcdec _ => none

/-- The response an operation gives in a state. -/
def responseOf (i : Instr) (s : State) : Option Response :=
  match exec i s with
  | .next t => t.rsp
  | .fault _ => none
  | .refused _ => none

/-- The reserved values of `op`, as 30_encoding.md R39 lists them. -/
def isReservedOp (n : Nat) : Bool :=
  n = 0x00 || (0x06 ≤ n && n ≤ 0x0F) || n = 0x14 || (0x18 ≤ n && n ≤ 0x1F) || n = 0x24 || (0x28 ≤ n && n ≤ 0x2F) ||
    (0x37 ≤ n && n ≤ 0x3F) || (0x47 ≤ n && n ≤ 0x4F) || (0x54 ≤ n && n ≤ 0xFF)

/-- The bits of `a` that the operation with the given `op` reads (30_encoding.md R38), as a mask; a reserved `op` reads
none (R39). -/
def readMask (op : Nat) : Word :=
  if op ∈ [0x03, 0x05, 0x21, 0x25, 0x31, 0x32, 0x35] then 0x0000FFFF
  else if op ∈ [0x20, 0x34, 0x52, 0x53] then 0x000000FF
  else if op ∈ [0x22, 0x26, 0x33, 0x36] then 0x00FFFFFF
  else if op ∈ [0x04, 0x23, 0x27, 0x30, 0x40, 0x41, 0x42, 0x43, 0x44, 0x45, 0x46] then 0xFFFFFFFF
  else if op = 0x50 then 0x000103FF
  else if op = 0x51 then 0x000007FF
  else 0

/-- The operations that read `off`: the loads and stores (30_encoding.md R37, R38). -/
def readsOff (op : Nat) : Bool :=
  op ∈ [0x10, 0x11, 0x12, 0x13, 0x15, 0x16, 0x17, 0x20, 0x21, 0x22, 0x23, 0x25, 0x26, 0x27]

/-- What a store of the low `n` bytes of `v` at `off` makes of a state (20_memory.md R23, 41_loadstore.md R60): those
bytes, little-endian, every other byte as before, the response `rsp(OK, 0)`, nothing else. -/
structure Stored (off n v : Nat) (s t : State) : Prop where
  response : t.rsp = some ⟨.ok, 0⟩
  inside : ∀ k, k < n → t.bufByte (off + k) = BitVec.ofNat 8 (v / 2 ^ (8 * k))
  outside : ∀ a, a < off ∨ off + n ≤ a → t.bufByte a = s.bufByte a
  host : t.host = s.host
  epoch : t.epoch = s.epoch
  inputs : t.inputs = s.inputs

/-- The pattern `r` is what the integer algorithm of 43_unorm.md R100 gives for `n` over `max`: with `e = -t`,
`max * 2^e <= n < max * 2^(e+1)`, the quotient of `n * 2^(23-e)` by `max` to the nearest integer, without its leading
bit, under the exponent field `e + 127`. -/
structure Dequantized (n max : Nat) (r : Word) : Prop where
  zero : n = 0 → r = 0x00000000
  one : n = max → r = 0x3F800000
  between : ∀ t, n < max → max ≤ n * 2 ^ t → n * 2 ^ t < 2 * max →
    r.toNat = (127 - t) * 2 ^ 23 + ((2 * (n * 2 ^ (23 + t)) + max) / (2 * max) - 2 ^ 23)

/-- The pattern `r` is the binary32 value nearest to `n / max` (43_unorm.md R100): within half a unit of its own last
place, strictly, since no tie arises; a positive normal in (0, 1) between the ends. -/
structure NearestQuotient (n max : Nat) (r : Word) : Prop where
  zero : n = 0 → val r = 0
  one : n = max → val r = 1
  between : 0 < n → n < max → signBit r = 0 ∧ 1 ≤ expField r ∧ expField r ≤ 126 ∧
    2 * |val r - (n : ℚ) / (max : ℚ)| < (2 : ℚ) ^ ((expField r : ℤ) - 150)

/-- The integer `r` is what the algorithm of 43_unorm.md R101 gives for the pattern `x`, on its fields. -/
structure Quantized (x : Word) (max : Nat) (r : Word) : Prop where
  nan : x.toNat / 2 ^ 23 % 2 ^ 8 = 255 → x.toNat % 2 ^ 23 ≠ 0 → r = 0
  negative : 2 ^ 31 ≤ x.toNat → r = 0
  fromOne : x.toNat < 2 ^ 31 → 127 ≤ x.toNat / 2 ^ 23 → (x.toNat / 2 ^ 23 = 255 → x.toNat % 2 ^ 23 = 0) → r.toNat = max
  tiny : x.toNat < 2 ^ 23 → r = 0
  between : x.toNat < 2 ^ 31 → 1 ≤ x.toNat / 2 ^ 23 → x.toNat / 2 ^ 23 < 127 →
    let sig := 2 ^ 23 + x.toNat % 2 ^ 23
    let k := 150 - x.toNat / 2 ^ 23
    r.toNat = (2 * sig * max + 2 ^ k) / 2 ^ (k + 1)

end Sys2Proof.Machine
end

