-- ==== Sys2Proof/Certificates/Slice0/Obligations.lean ====
section
/-! DEFINITION. The statements for the provers. A statement's docstring names the rule of the spec it formalises. -/

open Sys2Proof Sys2Proof.Machine

/-! ## Encoding -/

/-- 30_encoding.md R35, R37, R40: the decoder gives back every well-formed instruction from its request word. -/
def Obligations.DecodeOfEncode : Prop :=
  ∀ i : Instr, i.wf = true → decode (encode i) = .ok i

/-- Words written out from 30_encoding.md R35, R37 and R40, one per family and one per field shape. -/
def Obligations.DecodesTheSpecsWords : Prop :=
  decode 0x030000001234 = .ok (.bswap16 0x1234) ∧
  decode 0x110600000000 = .ok (.ldu16 6) ∧
  decode 0x2202AB123456 = .ok (.stu24 2 0x123456) ∧
  decode 0x31FFFFFF3A00 = .ok (.f16dec 0x3A00) ∧
  decode 0x44003F000000 = .ok (.un8enc 0x3F000000) ∧
  decode 0x5000000102AC = .ok (.hdrenc .high ⟨0x55, true, false, false⟩) ∧
  decode 0x5100FFFFF802 = .ok (.hdrdec 0x002) ∧
  decode 0x52FF00000006 = .ok (.dlcenc 6) ∧
  decode 0x140000000000 = .error (.reservedOp 0x14)

/-- 30_encoding.md R39: the reserved values of `op`, and what a request with one does. -/
def Obligations.ReservedOpsRaise : Prop :=
  (List.range 256).countP isReservedOp = 219 ∧
  ∀ (w : ReqWord) (s : State),
    (isReservedOp (reqOp w).toNat = true →
      decode w = .error (.reservedOp (reqOp w)) ∧
      step (s.present w) = .next { s with rsp := some ⟨.contractViolation, 0⟩ }) ∧
    (isReservedOp (reqOp w).toNat = false → ∃ i, decode w = .ok i ∧ i.wf = true ∧ i.op = reqOp w)

/-- 30_encoding.md R38: requests that agree on `op` and on the bits the operation reads have the same response and
leave the same BUF. -/
def Obligations.IgnoredBitsNeverMatter : Prop :=
  ∀ (w w' : ReqWord) (s : State), reqOp w = reqOp w' →
    (readsOff (reqOp w).toNat = true → reqOff w = reqOff w') →
    reqA w &&& readMask (reqOp w).toNat = reqA w' &&& readMask (reqOp w).toNat →
    decode w = decode w' ∧ step (s.present w) = step (s.present w')

/-- 30_encoding.md R35: a step on a presented request is the decoded operation, the request taken from the port and the
response port cleared (log entries 4 and 5). -/
def Obligations.StepRunsTheDecodedInstruction : Prop :=
  ∀ (s : State) (w : ReqWord) (rest : List Input) (i : Instr),
    s.inputs = .request w :: rest → decode w = .ok i →
    step s = exec i { s with inputs := rest, rsp := none }

/-! ## Portability (40_portability.md) -/

/-- R50, R51: the two constants, each reported by its own query. -/
def Obligations.HostOrderQueries : Prop :=
  ∀ (s : State) (off : BitVec 8) (a : Word),
    decode (reqWord 0x01 off a) = .ok .hostle ∧
    exec .hostle s = .next { s with rsp := some ⟨.ok, if s.host.le then 1 else 0⟩ } ∧
    decode (reqWord 0x02 off a) = .ok .bflsb ∧
    exec .bflsb s = .next { s with rsp := some ⟨.ok, if s.host.bitfieldLsbFirst then 1 else 0⟩ }

/-- R52: BSWAP16 exchanges the two bytes of `a[15:0]`, leaves equal bytes unchanged, and undoes itself:
"BSWAP16 applied twice returns `a[15:0]`" is an inference the spec marks as its own. -/
def Obligations.ByteSwap16 : Prop :=
  ∀ (s : State) (off : BitVec 8) (a : Word),
    let v := a.extractLsb' 0 16
    decode (reqWord 0x03 off a) = .ok (.bswap16 v) ∧
    ∃ r : Word, exec (.bswap16 v) s = .next { s with rsp := some ⟨.ok, r⟩ } ∧
      r.toNat = a.toNat % 2 ^ 8 * 2 ^ 8 + a.toNat / 2 ^ 8 % 2 ^ 8 ∧
      (a.toNat % 2 ^ 8 = a.toNat / 2 ^ 8 % 2 ^ 8 → r.toNat = a.toNat % 2 ^ 16) ∧
      exec (.bswap16 (r.extractLsb' 0 16)) s = .next { s with rsp := some ⟨.ok, v.setWidth 32⟩ }

/-- R53: BSWAP32 reverses the four bytes of `a` and undoes itself: "BSWAP32 applied twice returns `a`" is an inference the
spec marks as its own. -/
def Obligations.ByteSwap32 : Prop :=
  ∀ (s : State) (off : BitVec 8) (a : Word),
    decode (reqWord 0x04 off a) = .ok (.bswap32 a) ∧
    ∃ r : Word, exec (.bswap32 a) s = .next { s with rsp := some ⟨.ok, r⟩ } ∧
      r.toNat = a.toNat % 2 ^ 8 * 2 ^ 24 + a.toNat / 2 ^ 8 % 2 ^ 8 * 2 ^ 16 + a.toNat / 2 ^ 16 % 2 ^ 8 * 2 ^ 8 +
        a.toNat / 2 ^ 24 ∧
      exec (.bswap32 r) s = .next { s with rsp := some ⟨.ok, a⟩ }

/-- R54: CLZ16 gives 16 for zero, else 15 minus the position of the highest one bit of `a[15:0]`. -/
def Obligations.CountLeadingZeros16 : Prop :=
  ∀ (s : State) (off : BitVec 8) (a : Word),
    let v := a.extractLsb' 0 16
    decode (reqWord 0x05 off a) = .ok (.clz16 v) ∧
    (v = 0 → exec (.clz16 v) s = .next { s with rsp := some ⟨.ok, 16⟩ }) ∧
    ∀ p, p < 16 → a.getLsbD p = true → (∀ j, p < j → j < 16 → a.getLsbD j = false) →
      exec (.clz16 v) s = .next { s with rsp := some ⟨.ok, BitVec.ofNat 32 (15 - p)⟩ }

/-! ## Loads and stores (41_loadstore.md, 20_memory.md) -/

/-- R61 to R64: the unsigned loads, little-endian at any legal offset; ContractViolation beyond. -/
def Obligations.UnsignedLoads : Prop :=
  (∀ (off : BitVec 8) (a : Word),
    decode (reqWord 0x10 off a) = .ok (.ldu8 off.toNat) ∧ decode (reqWord 0x11 off a) = .ok (.ldu16 off.toNat) ∧
    decode (reqWord 0x12 off a) = .ok (.ldu24 off.toNat) ∧ decode (reqWord 0x13 off a) = .ok (.ldu32 off.toNat)) ∧
  ∀ (s : State) (o : Nat),
    let b := fun k => (s.bufByte (o + k)).toNat
    let violation : Result := .next { s with rsp := some ⟨.contractViolation, 0⟩ }
    (o ≤ 7 → ∃ r : Word, exec (.ldu8 o) s = .next { s with rsp := some ⟨.ok, r⟩ } ∧ r.toNat = b 0) ∧
    (7 < o → exec (.ldu8 o) s = violation) ∧
    (o ≤ 6 → ∃ r : Word, exec (.ldu16 o) s = .next { s with rsp := some ⟨.ok, r⟩ } ∧
      r.toNat = b 0 + b 1 * 2 ^ 8) ∧
    (6 < o → exec (.ldu16 o) s = violation) ∧
    (o ≤ 5 → ∃ r : Word, exec (.ldu24 o) s = .next { s with rsp := some ⟨.ok, r⟩ } ∧
      r.toNat = b 0 + b 1 * 2 ^ 8 + b 2 * 2 ^ 16) ∧
    (5 < o → exec (.ldu24 o) s = violation) ∧
    (o ≤ 4 → ∃ r : Word, exec (.ldu32 o) s = .next { s with rsp := some ⟨.ok, r⟩ } ∧
      r.toNat = b 0 + b 1 * 2 ^ 8 + b 2 * 2 ^ 16 + b 3 * 2 ^ 24) ∧
    (4 < o → exec (.ldu32 o) s = violation)

/-- R65 to R67: the signed loads: `r`, read as a signed integer, is the two's-complement value of the loaded bits, and its
low bits are those the unsigned load of the width delivers. -/
def Obligations.SignedLoads : Prop :=
  (∀ (off : BitVec 8) (a : Word),
    decode (reqWord 0x15 off a) = .ok (.ldi16 off.toNat) ∧ decode (reqWord 0x16 off a) = .ok (.ldi24 off.toNat) ∧
    decode (reqWord 0x17 off a) = .ok (.ldi32 off.toNat)) ∧
  ∀ (s : State) (o : Nat),
    let b := fun k => ((s.bufByte (o + k)).toNat : Int)
    let violation : Result := .next { s with rsp := some ⟨.contractViolation, 0⟩ }
    (o ≤ 6 → ∃ r : Word, exec (.ldi16 o) s = .next { s with rsp := some ⟨.ok, r⟩ } ∧
      exec (.ldu16 o) s = .next { s with rsp := some ⟨.ok, r &&& 0x0000FFFF⟩ } ∧
      let v := b 0 + b 1 * 2 ^ 8
      r.toInt = if b 1 < 2 ^ 7 then v else v - 2 ^ 16) ∧
    (6 < o → exec (.ldi16 o) s = violation) ∧
    (o ≤ 5 → ∃ r : Word, exec (.ldi24 o) s = .next { s with rsp := some ⟨.ok, r⟩ } ∧
      exec (.ldu24 o) s = .next { s with rsp := some ⟨.ok, r &&& 0x00FFFFFF⟩ } ∧
      let v := b 0 + b 1 * 2 ^ 8 + b 2 * 2 ^ 16
      r.toInt = if b 2 < 2 ^ 7 then v else v - 2 ^ 24) ∧
    (5 < o → exec (.ldi24 o) s = violation) ∧
    (o ≤ 4 → ∃ r : Word, exec (.ldi32 o) s = .next { s with rsp := some ⟨.ok, r⟩ } ∧
      exec (.ldu32 o) s = .next { s with rsp := some ⟨.ok, r⟩ } ∧
      let v := b 0 + b 1 * 2 ^ 8 + b 2 * 2 ^ 16 + b 3 * 2 ^ 24
      r.toInt = if b 3 < 2 ^ 7 then v else v - 2 ^ 32) ∧
    (4 < o → exec (.ldi32 o) s = violation)

/-- R68 to R74: each store writes its bytes little-endian and nothing else, a signed store what the unsigned one of its
width writes; LDI24 returns what STI24 stored, sign-extended; out of bounds a store raises and writes nothing. That a signed store
does what the unsigned one does (R72) and that LDI24 returns what STI24 stored (R73) are inferences the spec marks as its
own. -/
def Obligations.StoresWriteTheirBytes : Prop :=
  (∀ (off : BitVec 8) (a : Word),
    decode (reqWord 0x20 off a) = .ok (.stu8 off.toNat (a.extractLsb' 0 8)) ∧
    decode (reqWord 0x21 off a) = .ok (.stu16 off.toNat (a.extractLsb' 0 16)) ∧
    decode (reqWord 0x22 off a) = .ok (.stu24 off.toNat (a.extractLsb' 0 24)) ∧
    decode (reqWord 0x23 off a) = .ok (.stu32 off.toNat a) ∧
    decode (reqWord 0x25 off a) = .ok (.sti16 off.toNat (a.extractLsb' 0 16)) ∧
    decode (reqWord 0x26 off a) = .ok (.sti24 off.toNat (a.extractLsb' 0 24)) ∧
    decode (reqWord 0x27 off a) = .ok (.sti32 off.toNat a)) ∧
  ∀ (s : State) (o : Nat),
    let violation : Result := .next { s with rsp := some ⟨.contractViolation, 0⟩ }
    (∀ v, o ≤ 7 → ∃ t, exec (.stu8 o v) s = .next t ∧ Stored o 1 v.toNat s t) ∧
    (∀ v, o ≤ 6 → ∃ t, exec (.stu16 o v) s = .next t ∧ Stored o 2 v.toNat s t) ∧
    (∀ v, o ≤ 5 → ∃ t, exec (.stu24 o v) s = .next t ∧ Stored o 3 v.toNat s t) ∧
    (∀ v, o ≤ 4 → ∃ t, exec (.stu32 o v) s = .next t ∧ Stored o 4 v.toNat s t) ∧
    (∀ v, o ≤ 6 → ∃ t, exec (.sti16 o v) s = .next t ∧ exec (.stu16 o v) s = .next t ∧ Stored o 2 v.toNat s t) ∧
    (∀ v, o ≤ 5 → ∃ t, exec (.sti24 o v) s = .next t ∧ exec (.stu24 o v) s = .next t ∧ Stored o 3 v.toNat s t ∧
      exec (.ldi24 o) t = .next { t with rsp := some ⟨.ok, v.signExtend 32⟩ }) ∧
    (∀ v, o ≤ 4 → ∃ t, exec (.sti32 o v) s = .next t ∧ exec (.stu32 o v) s = .next t ∧ Stored o 4 v.toNat s t) ∧
    (∀ v, 7 < o → exec (.stu8 o v) s = violation) ∧
    (∀ v, 6 < o → exec (.stu16 o v) s = violation ∧ exec (.sti16 o v) s = violation) ∧
    (∀ v, 5 < o → exec (.stu24 o v) s = violation ∧ exec (.sti24 o v) s = violation) ∧
    (∀ v, 4 < o → exec (.stu32 o v) s = violation ∧ exec (.sti32 o v) s = violation)

/-- R75 (an inference the spec marks as its own): a load after a store of the same width at the same legal offset returns
what was stored, zero- or sign-extended; a signed and an unsigned store do the same. -/
def Obligations.LoadAfterStore : Prop :=
  ∀ (s : State) (o : Nat),
    (∀ v : BitVec 8, o + 1 ≤ 8 → ∃ t, exec (.stu8 o v) s = .next t ∧
      exec (.ldu8 o) t = .next { t with rsp := some ⟨.ok, v.setWidth 32⟩ }) ∧
    (∀ v : BitVec 16, o + 2 ≤ 8 → ∃ t, exec (.stu16 o v) s = .next t ∧ exec (.sti16 o v) s = .next t ∧
      exec (.ldu16 o) t = .next { t with rsp := some ⟨.ok, v.setWidth 32⟩ } ∧
      exec (.ldi16 o) t = .next { t with rsp := some ⟨.ok, v.signExtend 32⟩ }) ∧
    (∀ v : BitVec 24, o + 3 ≤ 8 → ∃ t, exec (.stu24 o v) s = .next t ∧ exec (.sti24 o v) s = .next t ∧
      exec (.ldu24 o) t = .next { t with rsp := some ⟨.ok, v.setWidth 32⟩ } ∧
      exec (.ldi24 o) t = .next { t with rsp := some ⟨.ok, v.signExtend 32⟩ }) ∧
    (∀ v : BitVec 32, o + 4 ≤ 8 → ∃ t, exec (.stu32 o v) s = .next t ∧ exec (.sti32 o v) s = .next t ∧
      exec (.ldu32 o) t = .next { t with rsp := some ⟨.ok, v⟩ } ∧
      exec (.ldi32 o) t = .next { t with rsp := some ⟨.ok, v⟩ })

/-- R75: two legal stores to disjoint byte ranges commute, as states: BUF in canonical form is one list. -/
def Obligations.DisjointStoresCommute : Prop :=
  ∀ (s : State) (i j : Instr) (off n off' n' : Nat), s.buf.wf →
    storedBytes i = some (off, n) → storedBytes j = some (off', n') →
    contractKept i = true → contractKept j = true → off + n ≤ off' ∨ off' + n' ≤ off →
    ∃ t t' u, exec i s = .next t ∧ exec j t = .next u ∧ exec j s = .next t' ∧ exec i t' = .next u

/-- The frame of the 30 operations that store nothing (20_memory.md R15, R26; 41_loadstore.md R60: "A load changes
nothing"): only the response port changes, and every byte of BUF reads as before. -/
def Obligations.FrameOfNonStores : Prop :=
  ∀ (i : Instr) (s t : State), storedBytes i = none → exec i s = .next t →
    t.host = s.host ∧ t.buf = s.buf ∧ t.epoch = s.epoch ∧ t.inputs = s.inputs ∧
    ∀ a, t.bufByte a = s.bufByte a

/-- The frame of STU8, STU16, STU24, STU32, STI16, STI24, STI32 (20_memory.md R23, R25): every byte outside the bytes at
the operand's offset reads as before, nothing else but the response port changes; out of bounds every byte reads as
before. -/
def Obligations.FrameOfStores : Prop :=
  ∀ (i : Instr) (s t : State) (off n : Nat), storedBytes i = some (off, n) → exec i s = .next t →
    t.host = s.host ∧ t.epoch = s.epoch ∧ t.inputs = s.inputs ∧
    (∀ a, a < off ∨ off + n ≤ a → t.bufByte a = s.bufByte a) ∧
    (8 < off + n → ∀ a, t.bufByte a = s.bufByte a)

/-! ## Exceptions (60_exceptions.md) -/

/-- R133, R134 (R134 is an inference the spec marks as its own): every operation whose contract is kept is answered OK,
in every state; all conversions, portability and header operations always are. -/
def Obligations.CompletesWhenContractKept : Prop :=
  ∀ (i : Instr) (s : State), contractKept i = true →
    ∃ (t : State) (r : Word), exec i s = .next t ∧ t.rsp = some ⟨.ok, r⟩

/-- R131: MalformedFrame is the response of exactly the DLCDEC requests with `a[7:0]` outside [2,8]. -/
def Obligations.MalformedFrameExactlyWhere : Prop :=
  ∀ (s : State) (w : ReqWord),
    let cause := reqOp w = 0x53 ∧ ((reqA w).toNat % 256 < 2 ∨ 8 < (reqA w).toNat % 256)
    (cause → step (s.present w) = .next { s with rsp := some ⟨.malformedFrame, 0⟩ }) ∧
    ∀ (t : State) (r : Word), step (s.present w) = .next t → t.rsp = some ⟨.malformedFrame, r⟩ → cause

/-- R132: ContractViolation is the response of exactly the requests with a reserved `op`, the loads and stores with
`off + n > 8`, `n = op[1:0] + 1`, and DLCENC with `a[7:0] > 6`. -/
def Obligations.ContractViolationExactlyWhere : Prop :=
  ∀ (s : State) (w : ReqWord),
    let cause := isReservedOp (reqOp w).toNat = true ∨
      (readsOff (reqOp w).toNat = true ∧ 8 < (reqOff w).toNat + ((reqOp w).toNat % 4 + 1)) ∨
      (reqOp w = 0x52 ∧ 6 < (reqA w).toNat % 256)
    (cause → step (s.present w) = .next { s with rsp := some ⟨.contractViolation, 0⟩ }) ∧
    ∀ (t : State) (r : Word), step (s.present w) = .next t → t.rsp = some ⟨.contractViolation, r⟩ → cause

/-- R137: a request that raises an exception writes no byte of BUF, saves nothing and is answered `rsp(code, 0)`. -/
def Obligations.ExceptionHasNoEffect : Prop :=
  ∀ (s t : State) (w : ReqWord) (p : Response), step (s.present w) = .next t → t.rsp = some p → p.status ≠ .ok →
    p.r = 0 ∧ t = { s with rsp := some ⟨p.status, 0⟩ } ∧ ∀ a, t.bufByte a = s.bufByte a

/-! ## Floats (42_float.md) -/

/-- R81, R82: F32DEC and F32ENC are the identity on bit patterns. -/
def Obligations.Float32IsTheIdentity : Prop :=
  ∀ (s : State) (off : BitVec 8) (a : Word),
    decode (reqWord 0x30 off a) = .ok (.f32dec a) ∧
    exec (.f32dec a) s = .next { s with rsp := some ⟨.ok, a⟩ } ∧
    decode (reqWord 0x40 off a) = .ok (.f32enc a) ∧
    exec (.f32enc a) s = .next { s with rsp := some ⟨.ok, a⟩ }

/-- R83: the four cases of F16DEC; the subnormal case with `p` the position of the mantissa's leading one, so that
`lz = 15 - p`. -/
def Obligations.Float16Decode : Prop :=
  ∀ (s : State) (off : BitVec 8) (a : Word),
    let h := a.extractLsb' 0 16
    let sign := a.toNat / 2 ^ 15 % 2
    let e := a.toNat / 2 ^ 10 % 2 ^ 5
    let m := a.toNat % 2 ^ 10
    decode (reqWord 0x31 off a) = .ok (.f16dec h) ∧
    ∃ r : Word, exec (.f16dec h) s = .next { s with rsp := some ⟨.ok, r⟩ } ∧
      (e = 31 → r.toNat = sign * 2 ^ 31 + 255 * 2 ^ 23 + m * 2 ^ 13) ∧
      (e = 0 → m = 0 → r.toNat = sign * 2 ^ 31) ∧
      (∀ p, e = 0 → 2 ^ p ≤ m → m < 2 ^ (p + 1) →
        r.toNat = sign * 2 ^ 31 + (103 + p) * 2 ^ 23 + (m * 2 ^ (10 - p) - 2 ^ 10) * 2 ^ 13) ∧
      (1 ≤ e → e ≤ 30 → r.toNat = sign * 2 ^ 31 + (e + 112) * 2 ^ 23 + m * 2 ^ 13)

/-- R83 with 93 GK3: F16DEC is exact on every finite half pattern: `m * 2^-24` for a subnormal, `(1024 + m) * 2^(e-25)`
for a normal, with its sign. It rests on `val` (log entry 13). -/
def Obligations.Float16DecodeIsExact : Prop :=
  ∀ (s : State) (h : BitVec 16),
    let sign : ℚ := if h.toNat / 2 ^ 15 = 1 then -1 else 1
    let e : ℕ := h.toNat / 2 ^ 10 % 2 ^ 5
    let m : ℕ := h.toNat % 2 ^ 10
    e < 31 → ∃ r : Word, exec (.f16dec h) s = .next { s with rsp := some ⟨.ok, r⟩ } ∧ expField r ≠ 0xFF ∧
      val r = sign * (if e = 0 then (m : ℚ) * 2 ^ (-24 : ℤ) else ((1024 + m : ℕ) : ℚ) * 2 ^ ((e : ℤ) - 25))

/-- R84: the branches of F16ENC on the fields of `a`, `E = B - 127`: NaN, overflow and infinity, signed zero, subnormal,
normal with the carry added into the exponent. -/
def Obligations.Float16Encode : Prop :=
  ∀ (s : State) (off : BitVec 8) (a : Word),
    let sign := a.toNat / 2 ^ 31
    let B := a.toNat / 2 ^ 23 % 2 ^ 8
    let M := a.toNat % 2 ^ 23
    let X := 2 ^ 23 + M
    decode (reqWord 0x41 off a) = .ok (.f16enc a) ∧
    ∃ r : Word, exec (.f16enc a) s = .next { s with rsp := some ⟨.ok, r⟩ } ∧
      (B = 255 → M ≠ 0 → r = 0x7FFF) ∧
      (143 ≤ B → (B = 255 → M = 0) → r.toNat = sign * 2 ^ 15 + 0x7C00) ∧
      (B < 102 → r.toNat = sign * 2 ^ 15) ∧
      (102 ≤ B → B < 113 →
        r.toNat = sign * 2 ^ 15 + (X / 2 ^ (126 - B) + X / 2 ^ (125 - B) % 2)) ∧
      (113 ≤ B → B < 143 →
        r.toNat = sign * 2 ^ 15 + ((B - 112) * 2 ^ 10 + M / 2 ^ 13 + M / 2 ^ 12 % 2))

/-- R80(a), R84(v) (an inference the spec marks as its own): F16ENC rounds to nearest, ties away from zero. Below the
overflow threshold 65520 the encoded value is off by at most half a unit of the result's grid, and by exactly half only
away from zero. It rests on `val` (log entry 13). -/
def Obligations.Float16EncodeRoundsToNearest : Prop :=
  ∀ (s : State) (x : Word), expField x ≠ 0xFF → |val x| < 65520 →
    ∃ h r : Word, exec (.f16enc x) s = .next { s with rsp := some ⟨.ok, h⟩ } ∧
      exec (.f16dec (h.extractLsb' 0 16)) s = .next { s with rsp := some ⟨.ok, r⟩ } ∧ expField r ≠ 0xFF ∧
      let half : ℚ := if expField x < 113 then 2 ^ (-25 : ℤ) else 2 ^ ((expField x : ℤ) - 138)
      |val r - val x| ≤ half ∧ (|val r - val x| = half → |val x| < |val r|)

/-- R90 (an inference the spec marks as its own): encoding a decoded half pattern gives it back, and `0x7FFF` for every
NaN half pattern. -/
def Obligations.Float16RoundTrip : Prop :=
  ∀ (s : State) (h : BitVec 16),
    ∃ r : Word, exec (.f16dec h) s = .next { s with rsp := some ⟨.ok, r⟩ } ∧
      exec (.f16enc r) s = .next { s with rsp := some ⟨.ok,
        if h.toNat / 2 ^ 10 % 2 ^ 5 = 31 ∧ h.toNat % 2 ^ 10 ≠ 0 then 0x7FFF else h.setWidth 32⟩ }

/-- R85, R87: the stored bits become the top 16, or 24, bits of the pattern, zeros below. -/
def Obligations.BFloatDecode : Prop :=
  ∀ (s : State) (off : BitVec 8) (a : Word),
    decode (reqWord 0x32 off a) = .ok (.bf16dec (a.extractLsb' 0 16)) ∧
    (∃ r : Word, exec (.bf16dec (a.extractLsb' 0 16)) s = .next { s with rsp := some ⟨.ok, r⟩ } ∧
      r.toNat = a.toNat % 2 ^ 16 * 2 ^ 16) ∧
    decode (reqWord 0x33 off a) = .ok (.bf24dec (a.extractLsb' 0 24)) ∧
    (∃ r : Word, exec (.bf24dec (a.extractLsb' 0 24)) s = .next { s with rsp := some ⟨.ok, r⟩ } ∧
      r.toNat = a.toNat % 2 ^ 24 * 2 ^ 8)

/-- R86, R88: the rounding bit is added to the retained bits, mod 2^16, or 2^24, for every pattern. -/
def Obligations.BFloatEncode : Prop :=
  ∀ (s : State) (off : BitVec 8) (a : Word),
    decode (reqWord 0x42 off a) = .ok (.bf16enc a) ∧
    (∃ r : Word, exec (.bf16enc a) s = .next { s with rsp := some ⟨.ok, r⟩ } ∧
      r.toNat = (a.toNat / 2 ^ 16 + a.toNat / 2 ^ 15 % 2) % 2 ^ 16) ∧
    decode (reqWord 0x43 off a) = .ok (.bf24enc a) ∧
    (∃ r : Word, exec (.bf24enc a) s = .next { s with rsp := some ⟨.ok, r⟩ } ∧
      r.toNat = (a.toNat / 2 ^ 8 + a.toNat / 2 ^ 7 % 2) % 2 ^ 24)

/-- R91 (the half-unit form is an inference the spec marks as its own): for a finite pattern whose rounded result is
finite, decoding the encoded value is off by at most half a unit of the last retained bit. It rests on `val` (log
entry 13). -/
def Obligations.BFloatErrorBound : Prop :=
  ∀ (s : State) (x : Word), expField x ≠ 0xFF →
    let unit : ℚ := 2 ^ ((max (expField x) 1 : ℕ) - 150 : ℤ)
    (∃ w r : Word, exec (.bf16enc x) s = .next { s with rsp := some ⟨.ok, w⟩ } ∧
      exec (.bf16dec (w.extractLsb' 0 16)) s = .next { s with rsp := some ⟨.ok, r⟩ } ∧
      (expField r ≠ 0xFF → 2 * |val r - val x| ≤ 2 ^ 16 * unit)) ∧
    (∃ w r : Word, exec (.bf24enc x) s = .next { s with rsp := some ⟨.ok, w⟩ } ∧
      exec (.bf24dec (w.extractLsb' 0 24)) s = .next { s with rsp := some ⟨.ok, r⟩ } ∧
      (expField r ≠ 0xFF → 2 * |val r - val x| ≤ 2 ^ 8 * unit))

/-! ## UNorm (43_unorm.md) -/

/-- R100, R102 to R104: the dequantizers follow the exact integer algorithm on `n`, the low 8, 16 or 24 bits of `a`. -/
def Obligations.UnormDecode : Prop :=
  ∀ (s : State) (off : BitVec 8) (a : Word),
    decode (reqWord 0x34 off a) = .ok (.un8dec (a.extractLsb' 0 8)) ∧
    (∃ r : Word, exec (.un8dec (a.extractLsb' 0 8)) s = .next { s with rsp := some ⟨.ok, r⟩ } ∧
      Dequantized (a.toNat % 2 ^ 8) 255 r) ∧
    decode (reqWord 0x35 off a) = .ok (.un16dec (a.extractLsb' 0 16)) ∧
    (∃ r : Word, exec (.un16dec (a.extractLsb' 0 16)) s = .next { s with rsp := some ⟨.ok, r⟩ } ∧
      Dequantized (a.toNat % 2 ^ 16) 65535 r) ∧
    decode (reqWord 0x36 off a) = .ok (.un24dec (a.extractLsb' 0 24)) ∧
    (∃ r : Word, exec (.un24dec (a.extractLsb' 0 24)) s = .next { s with rsp := some ⟨.ok, r⟩ } ∧
      Dequantized (a.toNat % 2 ^ 24) 16777215 r)

/-- R100: the dequantizers give the binary32 value nearest to `n / max`. It rests on `val` (log entry 13). -/
def Obligations.UnormDecodeIsNearest : Prop :=
  ∀ s : State,
    (∀ n : BitVec 8, ∃ r : Word, exec (.un8dec n) s = .next { s with rsp := some ⟨.ok, r⟩ } ∧
      NearestQuotient n.toNat 255 r) ∧
    (∀ n : BitVec 16, ∃ r : Word, exec (.un16dec n) s = .next { s with rsp := some ⟨.ok, r⟩ } ∧
      NearestQuotient n.toNat 65535 r) ∧
    (∀ n : BitVec 24, ∃ r : Word, exec (.un24dec n) s = .next { s with rsp := some ⟨.ok, r⟩ } ∧
      NearestQuotient n.toNat 16777215 r)

/-- R105 to R107, with the function of R101, at the spec's default `UNORM_ENC_ARITH = exact` (92 D19, log entry 10): the
quantizers follow the exact integer algorithm on the fields of `x`. -/
def Obligations.UnormEncode : Prop :=
  ∀ (s : State) (off : BitVec 8) (x : Word),
    decode (reqWord 0x44 off x) = .ok (.un8enc x) ∧
    (∃ r : Word, exec (.un8enc x) s = .next { s with rsp := some ⟨.ok, r⟩ } ∧ Quantized x 255 r) ∧
    decode (reqWord 0x45 off x) = .ok (.un16enc x) ∧
    (∃ r : Word, exec (.un16enc x) s = .next { s with rsp := some ⟨.ok, r⟩ } ∧ Quantized x 65535 r) ∧
    decode (reqWord 0x46 off x) = .ok (.un24enc x) ∧
    (∃ r : Word, exec (.un24enc x) s = .next { s with rsp := some ⟨.ok, r⟩ } ∧ Quantized x 16777215 r)

/-- R101 in its one line: for every finite pattern the quantizers give `floor(v * max + 1/2)` of the clamped value, at the
spec's default `UNORM_ENC_ARITH = exact` (92 D19, log entry 10). It rests on `val` (log entry 13). -/
def Obligations.UnormEncodeIsExact : Prop :=
  ∀ (s : State) (x : Word), expField x ≠ 0xFF →
    let v : ℚ := min 1 (max 0 (val x))
    (∃ r : Word, exec (.un8enc x) s = .next { s with rsp := some ⟨.ok, r⟩ } ∧
      (r.toNat : ℤ) = ⌊v * 255 + 1 / 2⌋) ∧
    (∃ r : Word, exec (.un16enc x) s = .next { s with rsp := some ⟨.ok, r⟩ } ∧
      (r.toNat : ℤ) = ⌊v * 65535 + 1 / 2⌋) ∧
    (∃ r : Word, exec (.un24enc x) s = .next { s with rsp := some ⟨.ok, r⟩ } ∧
      (r.toNat : ℤ) = ⌊v * 16777215 + 1 / 2⌋)

/-- R108: the clamps, for every width: 0 for `val(x) <= 0`, `-infinity` and NaN; `max` for `val(x) >= 1` and
`+infinity`; no input raises an error. The clauses on `val(x)` rest on `val` (log entry 13). -/
def Obligations.UnormClamps : Prop :=
  ∀ (s : State) (x : Word),
    let low := (expField x ≠ 0xFF ∧ val x ≤ 0) ∨ (isInf32 x = true ∧ signBit x = 1) ∨ isNaN32 x = true
    let high := (expField x ≠ 0xFF ∧ 1 ≤ val x) ∨ (isInf32 x = true ∧ signBit x = 0)
    (low → exec (.un8enc x) s = .next { s with rsp := some ⟨.ok, 0⟩ } ∧
      exec (.un16enc x) s = .next { s with rsp := some ⟨.ok, 0⟩ } ∧
      exec (.un24enc x) s = .next { s with rsp := some ⟨.ok, 0⟩ }) ∧
    (high → exec (.un8enc x) s = .next { s with rsp := some ⟨.ok, 255⟩ } ∧
      exec (.un16enc x) s = .next { s with rsp := some ⟨.ok, 65535⟩ } ∧
      exec (.un24enc x) s = .next { s with rsp := some ⟨.ok, 16777215⟩ }) ∧
    ∃ r8 r16 r24 : Word, exec (.un8enc x) s = .next { s with rsp := some ⟨.ok, r8⟩ } ∧
      exec (.un16enc x) s = .next { s with rsp := some ⟨.ok, r16⟩ } ∧
      exec (.un24enc x) s = .next { s with rsp := some ⟨.ok, r24⟩ }

/-- R109 (an inference the spec marks as its own): quantizing a dequantized integer gives it back, for every integer of
every width. -/
def Obligations.UnormRoundTrip : Prop :=
  ∀ s : State,
    (∀ n : BitVec 8, ∃ r : Word, exec (.un8dec n) s = .next { s with rsp := some ⟨.ok, r⟩ } ∧
      exec (.un8enc r) s = .next { s with rsp := some ⟨.ok, n.setWidth 32⟩ }) ∧
    (∀ n : BitVec 16, ∃ r : Word, exec (.un16dec n) s = .next { s with rsp := some ⟨.ok, r⟩ } ∧
      exec (.un16enc r) s = .next { s with rsp := some ⟨.ok, n.setWidth 32⟩ }) ∧
    (∀ n : BitVec 24, ∃ r : Word, exec (.un24dec n) s = .next { s with rsp := some ⟨.ok, r⟩ } ∧
      exec (.un24enc r) s = .next { s with rsp := some ⟨.ok, n.setWidth 32⟩ })

/-- R109: "`decodeUNorm8(encodeUNorm8(v))` is monotonically non-decreasing in `v`", over every finite pattern, and the same
for the other two widths (which the spec infers). It rests on `val` (log entry 13). -/
def Obligations.UnormMonotone : Prop :=
  ∀ (s : State) (x y : Word), expField x ≠ 0xFF → expField y ≠ 0xFF → val x ≤ val y →
    (∃ m n r q : Word, exec (.un8enc x) s = .next { s with rsp := some ⟨.ok, m⟩ } ∧
      exec (.un8enc y) s = .next { s with rsp := some ⟨.ok, n⟩ } ∧ m.toNat ≤ n.toNat ∧
      exec (.un8dec (m.extractLsb' 0 8)) s = .next { s with rsp := some ⟨.ok, r⟩ } ∧
      exec (.un8dec (n.extractLsb' 0 8)) s = .next { s with rsp := some ⟨.ok, q⟩ } ∧ val r ≤ val q) ∧
    (∃ m n r q : Word, exec (.un16enc x) s = .next { s with rsp := some ⟨.ok, m⟩ } ∧
      exec (.un16enc y) s = .next { s with rsp := some ⟨.ok, n⟩ } ∧ m.toNat ≤ n.toNat ∧
      exec (.un16dec (m.extractLsb' 0 16)) s = .next { s with rsp := some ⟨.ok, r⟩ } ∧
      exec (.un16dec (n.extractLsb' 0 16)) s = .next { s with rsp := some ⟨.ok, q⟩ } ∧ val r ≤ val q) ∧
    (∃ m n r q : Word, exec (.un24enc x) s = .next { s with rsp := some ⟨.ok, m⟩ } ∧
      exec (.un24enc y) s = .next { s with rsp := some ⟨.ok, n⟩ } ∧ m.toNat ≤ n.toNat ∧
      exec (.un24dec (m.extractLsb' 0 24)) s = .next { s with rsp := some ⟨.ok, r⟩ } ∧
      exec (.un24dec (n.extractLsb' 0 24)) s = .next { s with rsp := some ⟨.ok, q⟩ } ∧ val r ≤ val q)

/-! ## Header and DLC (44_header.md) -/

/-- R115, R116: HDRENC takes `P = a[16]`, `uniqueId = a[9:3]` and the flags `a[2]`, `a[1]`, `a[0]`, and its identifier has
the inverted priority at bit 10 over the same ten bits (flag order: 90_conflicts.md C1). -/
def Obligations.HeaderEncode : Prop :=
  ∀ (s : State) (off : BitVec 8) (a : Word),
    let da : DeviceAddress := ⟨a.extractLsb' 3 7, a.getLsbD 2, a.getLsbD 1, a.getLsbD 0⟩
    let p : Priority := if a.getLsbD 16 then .high else .low
    decode (reqWord 0x50 off a) = .ok (.hdrenc p da) ∧
    ∃ r : Word, exec (.hdrenc p da) s = .next { s with rsp := some ⟨.ok, r⟩ } ∧
      r.toNat = (1 - a.toNat / 2 ^ 16 % 2) * 2 ^ 10 + da.uniqueId.toNat * 2 ^ 3 + da.peripheral.toNat * 2 ^ 2 +
        da.motor.toNat * 2 + da.power.toNat

/-- R117: HDRDEC's result has `P = 1 - id[10]` at bit 16 and `id[9:0]` at its bottom, with `id = a[10:0]`. -/
def Obligations.HeaderDecode : Prop :=
  ∀ (s : State) (off : BitVec 8) (a : Word),
    decode (reqWord 0x51 off a) = .ok (.hdrdec (a.extractLsb' 0 11)) ∧
    ∃ r : Word, exec (.hdrdec (a.extractLsb' 0 11)) s = .next { s with rsp := some ⟨.ok, r⟩ } ∧
      r.toNat = (1 - a.toNat / 2 ^ 10 % 2) * 2 ^ 16 + a.toNat % 2 ^ 10

/-- R120 (this form is an inference the spec marks as its own, "derived: from rules R116, R117"): the header bijection, on
raw operands, both ways round. -/
def Obligations.HeaderBijection : Prop :=
  ∀ (s : State) (off : BitVec 8) (a : Word),
    (∃ id : Word, step (s.present (reqWord 0x50 off a)) = .next { s with rsp := some ⟨.ok, id⟩ } ∧
      step (s.present (reqWord 0x51 off id)) = .next { s with rsp := some ⟨.ok, a &&& 0x000103FF⟩ }) ∧
    (∃ r : Word, step (s.present (reqWord 0x51 off a)) = .next { s with rsp := some ⟨.ok, r⟩ } ∧
      step (s.present (reqWord 0x50 off r)) = .next { s with rsp := some ⟨.ok, a &&& 0x7FF⟩ })

/-- R118: DLCENC gives `contentLength + 2` for a length up to 6, ContractViolation beyond; it reads `a[7:0]`. -/
def Obligations.DlcEncode : Prop :=
  ∀ (s : State) (off : BitVec 8) (a : Word),
    let len := a.toNat % 256
    decode (reqWord 0x52 off a) = .ok (.dlcenc len) ∧
    (len ≤ 6 → ∃ r : Word, exec (.dlcenc len) s = .next { s with rsp := some ⟨.ok, r⟩ } ∧ r.toNat = len + 2) ∧
    (6 < len → exec (.dlcenc len) s = .next { s with rsp := some ⟨.contractViolation, 0⟩ })

/-- R119: DLCDEC gives `dlc - 2` for a DLC in [2,8], MalformedFrame outside; it reads `a[7:0]`. -/
def Obligations.DlcDecode : Prop :=
  ∀ (s : State) (off : BitVec 8) (a : Word),
    let dlc := a.toNat % 256
    decode (reqWord 0x53 off a) = .ok (.dlcdec dlc) ∧
    (2 ≤ dlc → dlc ≤ 8 →
      ∃ r : Word, exec (.dlcdec dlc) s = .next { s with rsp := some ⟨.ok, r⟩ } ∧ r.toNat + 2 = dlc) ∧
    (dlc < 2 ∨ 8 < dlc → exec (.dlcdec dlc) s = .next { s with rsp := some ⟨.malformedFrame, 0⟩ })

/-- R121 ("Both hold by rules R118 and R119", an inference the spec marks as its own): the DLC invariant: decode undoes encode on [0,6], encode undoes decode on [2,8], and an OK answer of DLCENC is
always in [2,8]. -/
def Obligations.DlcInvariant : Prop :=
  ∀ s : State,
    (∀ len, len ≤ 6 → ∃ d : Word, responseOf (.dlcenc len) s = some ⟨.ok, d⟩ ∧
      responseOf (.dlcdec d.toNat) s = some ⟨.ok, BitVec.ofNat 32 len⟩) ∧
    (∀ dlc, 2 ≤ dlc → dlc ≤ 8 → ∃ n : Word, responseOf (.dlcdec dlc) s = some ⟨.ok, n⟩ ∧
      responseOf (.dlcenc n.toNat) s = some ⟨.ok, BitVec.ofNat 32 dlc⟩) ∧
    (∀ (len : Nat) (d : Word), responseOf (.dlcenc len) s = some ⟨.ok, d⟩ → 2 ≤ d.toNat ∧ d.toNat ≤ 8)

/-! ## The machine -/

/-- 30_encoding.md R36, 60_exceptions.md R130: the fields and codes of the response word; 3 is never produced. -/
def Obligations.ResponseWordFields : Prop :=
  ∀ p : Response,
    p.word.toNat % 2 ^ 32 = p.r.toNat ∧
    p.word.toNat / 2 ^ 32 =
      (match p.status with
        | .ok => 0
        | .malformedFrame => 1
        | .contractViolation => 2) ∧
    p.word.toNat / 2 ^ 32 ≠ 3

/-- 30_encoding.md R35, R36, 70_reset_and_hazards.md R158: every presented request, reserved ones too, is answered in one
step by exactly one response, with `r = 0` whenever the status is not OK; the request is taken from the port. -/
def Obligations.EveryRequestIsAnswered : Prop :=
  ∀ (s : State) (w : ReqWord) (rest : List Input), s.inputs = .request w :: rest →
    ∃ (t : State) (p : Response), step s = .next t ∧ t.rsp = some p ∧ (p.status ≠ .ok → p.r = 0) ∧
      t.inputs = rest ∧ t.host = s.host ∧ t.epoch = s.epoch

/-- The invariant: BUF in canonical form inside its eight offsets, a well-formed response at the port. Every step keeps
it, in every state that has it. -/
def Obligations.StepKeepsTheInvariant : Prop :=
  ∀ s t : State, s.Inv → step s = .next t → t.Inv

/-- The invariant holds right after reset. -/
def Obligations.ResetHasTheInvariant : Prop := State.reset.Inv

/-- 70_reset_and_hazards.md R150: what reset leaves: ports idle (nothing pending at the response port), constants as they
were, every byte of BUF unknown anew: the free value of log entries 1 and 2, whatever it is. -/
def Obligations.ResetLeaves : Prop :=
  State.reset.rsp = none ∧ State.reset.inputs = [] ∧
  (∀ a, State.reset.bufByte a = Config.unwrittenByte State.reset.epoch a) ∧
  ∀ (s : State) (rest : List Input), s.inputs = .reset :: rest →
    ∃ t, step s = .next t ∧ t.rsp = none ∧ t.host = s.host ∧ t.inputs = rest ∧ t.epoch = s.epoch + 1 ∧
      ∀ a, t.bufByte a = Config.unwrittenByte t.epoch a

/-- 10_state.md R14: the two constants are fixed for the life of a machine: no step changes them. -/
def Obligations.HostConstantsNeverChange : Prop :=
  ∀ s t : State, step s = .next t → t.host = s.host

/-- 00_scope.md R5: flipping either constant changes no response other than those of HOSTLE and BFLSB, and no BUF. -/
def Obligations.OnlyTheQueriesSeeTheHost : Prop :=
  ∀ (s : State) (h : HostOrder) (w : ReqWord), reqOp w ≠ 0x01 → reqOp w ≠ 0x02 →
    ∃ t, step (s.present w) = .next t ∧
      step (State.present { s with host := h } w) = .next { t with host := h }

/-- 10_state.md R13, 60_exceptions.md R138: no status is latched: what response stood at the port before, whatever its
status, does not influence the next step. -/
def Obligations.NoStatusIsLatched : Prop :=
  ∀ (s : State) (p q : Option Response), step { s with rsp := p } = step { s with rsp := q }

/-- 00_scope.md R4: an operation's response is a function of its request word, of the constants and of the bytes of BUF
it reads; for all but the loads BUF does not matter, nor do the port or the reset count. -/
def Obligations.ResponsesReadOnlyTheirBytes : Prop :=
  ∀ (i : Instr) (s s' : State), s.host = s'.host →
    (∀ off n, loadedBytes i = some (off, n) → ∀ a, off ≤ a → a < off + n → s.bufByte a = s'.bufByte a) →
    responseOf i s = responseOf i s'

/-- 20_memory.md R31: an access of the requester between requests changes exactly its byte. -/
def Obligations.RequesterWritesOneByte : Prop :=
  ∀ (s : State) (off : Fin 8) (b : Byte) (rest : List Input), s.inputs = .bufWrite off b :: rest →
    ∃ t, step s = .next t ∧ t.bufByte off.val = b ∧ (∀ a, a ≠ off.val → t.bufByte a = s.bufByte a) ∧
      t.host = s.host ∧ t.epoch = s.epoch ∧ t.inputs = rest

/-- 20_memory.md R32, 93 U4: the machine is refused exactly when the request it is to take is contended (log entry 7).
That it never faults is read from 60_exceptions.md R137 and R138, by which every fault of the spec is a response code, so
that `Fault` has no constructor (log entry 15). -/
def Obligations.RefusedExactlyWhenContended : Prop :=
  ∀ s : State,
    (∀ r, step s = .refused r ↔ r = .aliasedBuffer ∧ ∃ (w : ReqWord) (rest : List Input), s.inputs = .contended w :: rest) ∧
    ∀ f, step s ≠ .fault f

/-- 70_reset_and_hazards.md R158, 60_exceptions.md R138: with no contended request waiting, the machine goes on for any
number of steps, faults or not, taking one input a step in the order presented. -/
def Obligations.EveryUncontendedRunGoesOn : Prop :=
  ∀ s : State, (∀ x ∈ s.inputs, x.uncontended = true) → ∀ n : Nat,
    ∃ t, Sys2Proof.core.run n s = .next t ∧ t.inputs = s.inputs.drop n

/-- 20_memory.md R32, 92 D32, 93 U4, over the model's list of instances (log entry 17). A run that gives a next system
leaves each instance where it is alone after as many steps as the schedule names it, on the same BUF; a run does give
one when each instance alone goes on for so many steps; and a system with two instances on one BUF takes no step (log
entry 7). -/
def Obligations.InstancesAreIndependent : Prop :=
  ∀ (schedule : List Nat) (sys : System),
    (∀ (sys' : System) (k : Nat) (a : Attached), sys.run schedule = .next sys' → sys[k]? = some a →
      ∃ t : State, Sys2Proof.core.run (schedule.count k) a.machine = .next t ∧
        sys'[k]? = some { a with machine := t }) ∧
    (sys.ownBuffers →
      (∀ (k : Nat) (a : Attached), sys[k]? = some a →
        ∃ t : State, Sys2Proof.core.run (schedule.count k) a.machine = .next t) →
      ∃ sys', sys.run schedule = .next sys') ∧
    (¬ sys.ownBuffers → schedule ≠ [] → sys.run schedule = .refused .aliasedBuffer)

/-! ## The requester's sequences -/

/-- 30_encoding.md R40: the request word of a line of each form, and of HDRENC's five-operand form. -/
def Obligations.AssembledWords : Prop :=
  (∀ m : Mnemonic, m.form = .bare → assemble [] ⟨m, []⟩ = some (reqWord m.op 0 0)) ∧
  (∀ (m : Mnemonic) (v : Word), m.form = .value → assemble [] ⟨m, [.num v.toNat]⟩ = some (reqWord m.op 0 v)) ∧
  (∀ (m : Mnemonic) (off : BitVec 8), m.form = .offset →
    assemble [] ⟨m, [.num off.toNat]⟩ = some (reqWord m.op off 0)) ∧
  (∀ (m : Mnemonic) (off : BitVec 8) (v : Word), m.form = .offsetValue →
    assemble [] ⟨m, [.num off.toNat, .num v.toNat]⟩ = some (reqWord m.op off v)) ∧
  (∀ v : Word, assemble [] ⟨.hdrenc, [.num v.toNat]⟩ = some (reqWord 0x50 0 v)) ∧
  ∀ (p : Priority) (uid per mot pow : Nat), uid < 128 → per < 2 → mot < 2 → pow < 2 →
    assemble [] ⟨.hdrenc, [.prio p, .num uid, .num per, .num mot, .num pow]⟩ =
      some (reqWord 0x50 0 (BitVec.ofNat 32 (p.bit.toNat * 2 ^ 16 + uid * 2 ^ 3 + per * 2 ^ 2 + mot * 2 + pow)))

/-- 30_encoding.md R42, R89: at a legal offset each PUT* then the GET* of its format returns the decode of the encode;
for Float32 that is the pattern itself. At an illegal offset a GET* stops with ContractViolation, nothing changed. -/
def Obligations.PutThenGet : Prop :=
  ∀ (s : State) (off : BitVec 8) (x : Word),
    (off.toNat ≤ 4 → ∃ t u, putF32 off x s = .done 0 t ∧ getF32 off t = .done x u) ∧
    (off.toNat ≤ 6 → ∃ t u, putF16 off x s = .done 0 t ∧ getF16 off t = .done (f16dec (f16enc x)) u) ∧
    (off.toNat ≤ 6 → ∃ t u, putBf16 off x s = .done 0 t ∧ getBf16 off t = .done (bf16dec (bf16enc x)) u) ∧
    (off.toNat ≤ 5 → ∃ t u, putBf24 off x s = .done 0 t ∧ getBf24 off t = .done (bf24dec (bf24enc x)) u) ∧
    (off.toNat ≤ 7 → ∃ t u, putUn8 off x s = .done 0 t ∧
      getUn8 off t = .done (unormDec 8 (unormEnc Config.unormEncArith 8 x)) u) ∧
    (off.toNat ≤ 6 → ∃ t u, putUn16 off x s = .done 0 t ∧
      getUn16 off t = .done (unormDec 16 (unormEnc Config.unormEncArith 16 x)) u) ∧
    (off.toNat ≤ 5 → ∃ t u, putUn24 off x s = .done 0 t ∧
      getUn24 off t = .done (unormDec 24 (unormEnc Config.unormEncArith 24 x)) u) ∧
    (4 < off.toNat → getF32 off s = .stopped ⟨.contractViolation, 0⟩ { s with rsp := some ⟨.contractViolation, 0⟩ })

/-- 44_header.md R123: what PKTSER hands the driver for a record of up to 6 content bytes; beyond (up to the operand's
width), it stops with ContractViolation and BUF as it was. -/
def Obligations.PktserBuildsTheFrame : Prop :=
  ∀ (p : Packet) (s : State),
    (p.contentLength ≤ 6 → ∃ t : State,
      pktser p s = .done ⟨identifier Config.hdrFlagOrder p.priority p.destination, p.contentLength + 2,
        p.command :: p.senderId :: p.meaningful⟩ t ∧
      t.commandByte = p.command ∧ t.senderIdByte = p.senderId ∧
      (∀ (i : Nat) (h : i < Config.maxContent), i < p.contentLength → t.contentByte i = p.content[i]) ∧
      ∀ a, p.contentLength + 2 ≤ a → t.bufByte a = s.bufByte a) ∧
    (6 < p.contentLength → p.contentLength < 256 →
      pktser p s = .stopped ⟨.contractViolation, 0⟩ { s with rsp := some ⟨.contractViolation, 0⟩ })

/-- 44_header.md R125 (an inference the spec marks as its own): a frame that one instance's requester builds and another
receives, over any BUF, is the same record: equal in all but the bytes beyond `contentLength`, which may be anything
(log entry 14). -/
def Obligations.FrameRoundTrip : Prop :=
  ∀ (p : Packet) (beyond : Vector Byte Config.maxContent) (s s' : State), p.wf →
    ∃ (f : Frame) (q : Packet) (t u : State), pktser p s = .done f t ∧ receive f beyond s' = .done q u ∧ p.Agrees q

/-- 44_header.md R119, R124: a frame whose DLC is outside [2,8] is rejected with MalformedFrame, populates no Packet and
leaves BUF as the driver left it. -/
def Obligations.MalformedFrameIsRejected : Prop :=
  ∀ (id : BitVec 11) (dlc : BitVec 8) (beyond : Vector Byte Config.maxContent) (s : State), dlc.toNat < 2 ∨ 8 < dlc.toNat →
    pktdes id dlc.toNat beyond s = .stopped ⟨.malformedFrame, 0⟩ { s with rsp := some ⟨.malformedFrame, 0⟩ }
end

