-- ==== Sys2Proof/Laws/Decode.lean ====
section
/-! SUPPORT. The fields of a request word, and the Device Address composite both ways. -/

namespace Sys2Proof

@[simp] theorem reqOp_reqWord (op off : BitVec 8) (a : Word) : reqOp (reqWord op off a) = op := by
  apply BitVec.eq_of_getLsbD_eq
  intro i hi
  simp only [reqOp, reqWord, BitVec.getLsbD_extractLsb', BitVec.getLsbD_append]
  have h1 : ¬ 40 + i < 32 := by omega
  have h2 : ¬ 40 + i - 32 < 8 := by omega
  have h3 : 40 + i - 32 - 8 = i := by omega
  simp [hi, h1, h2, h3]

@[simp] theorem reqOff_reqWord (op off : BitVec 8) (a : Word) : reqOff (reqWord op off a) = off := by
  apply BitVec.eq_of_getLsbD_eq
  intro i hi
  simp only [reqOff, reqWord, BitVec.getLsbD_extractLsb', BitVec.getLsbD_append]
  have h1 : ¬ 32 + i < 32 := by omega
  have h3 : 32 + i - 32 = i := by omega
  simp [hi, h1, h3]

@[simp] theorem reqA_reqWord (op off : BitVec 8) (a : Word) : reqA (reqWord op off a) = a := by
  apply BitVec.eq_of_getLsbD_eq
  intro i hi
  simp only [reqA, reqWord, BitVec.getLsbD_extractLsb', BitVec.getLsbD_append]
  simp [hi]

/-- A request word is its three fields. -/
theorem reqWord_fields (w : ReqWord) : reqWord (reqOp w) (reqOff w) (reqA w) = w := by
  apply BitVec.eq_of_getLsbD_eq
  intro i hi
  simp only [reqOp, reqOff, reqA, reqWord, BitVec.getLsbD_extractLsb', BitVec.getLsbD_append]
  by_cases h1 : i < 32
  · simp [h1]
  · by_cases h2 : i - 32 < 8
    · simp [h1, h2]; congr 1; omega
    · have h3 : i - 32 - 8 < 8 := by omega
      simp [h1, h2, h3]; congr 1; omega

/-- Decoding a word is looking its `op` up and reading its fields. -/
theorem decode_reqWord (op off : BitVec 8) (a : Word) :
    decode (reqWord op off a) =
      match opTable.lookup op with
      | some read => .ok (read off a)
      | none => .error (.reservedOp op) := by
  cases h : opTable.lookup op <;> simp [decode, h]

theorem Priority.ofBit_bit (p : Priority) : Priority.ofBit p.bit = p := by cases p <;> rfl

theorem Priority.bit_ofBit (b : Bool) : (Priority.ofBit b).bit = b := by cases b <;> rfl

@[simp] theorem flagBit_getLsbD (w : Nat) (b : Bool) (i : Nat) (hw : 0 < w) :
    (flagBit w b).getLsbD i = (decide (i = 0) && b) := by
  cases b
  · simp [flagBit]
  · by_cases h : i = 0
    · subst h; simp [flagBit, hw]
    · simp [flagBit, BitVec.getLsbD_one, h, hw]

@[simp] theorem flagBit_getElem (w : Nat) (b : Bool) (i : Nat) (hi : i < w) :
    (flagBit w b)[i] = (decide (i = 0) && b) := by
  rw [← BitVec.getLsbD_eq_getElem]
  exact flagBit_getLsbD w b i (by omega)

/-- The bits of a composite (10_state.md R16). -/
theorem packAddress_getLsbD (o : Config.FlagOrder) (da : DeviceAddress) (i : Nat) (hi : i < 10) :
    (packAddress o da).getLsbD i =
      if i = peripheralPos o then da.peripheral
      else if i = 1 then da.motor
      else if i = powerPos o then da.power
      else da.uniqueId.getLsbD (i - 3) := by
  cases o <;> interval_cases i <;>
    simp [packAddress, peripheralPos, powerPos]

/-- Unpacking a packed address gives it back. -/
theorem unpackAddress_packAddress (o : Config.FlagOrder) (da : DeviceAddress) :
    unpackAddress o (packAddress o da) = da := by
  have huid : (packAddress o da).extractLsb' 3 7 = da.uniqueId := by
    apply BitVec.eq_of_getLsbD_eq
    intro i hi
    rw [BitVec.getLsbD_extractLsb', packAddress_getLsbD _ _ _ (by omega)]
    cases o <;> interval_cases i <;> simp [peripheralPos, powerPos]
  have hbit := packAddress_getLsbD o da
  have h0 := hbit 0 (by omega)
  have h1 := hbit 1 (by omega)
  have h2 := hbit 2 (by omega)
  obtain ⟨uid, per, mot, pow⟩ := da
  unfold unpackAddress
  cases o <;> simp only [peripheralPos, powerPos] at * <;> rw [huid, h0, h1, h2] <;> simp

/-- Packing an unpacked composite gives it back. -/
theorem packAddress_unpackAddress (o : Config.FlagOrder) (c : BitVec 10) :
    packAddress o (unpackAddress o c) = c := by
  apply BitVec.eq_of_getLsbD_eq
  intro i hi
  rw [packAddress_getLsbD _ _ _ hi]
  cases o <;> interval_cases i <;> simp [unpackAddress, peripheralPos, powerPos]

end Sys2Proof
end

