-- ==== Sys2Proof/Laws/Instances.lean ====
section
/-! SUPPORT. What one step of a run, and one step of a system of instances, can do. -/

namespace Sys2Proof.Machine

/-- The first step of a longer run of any machine of the host's interface. -/
theorem run_succ_of_next (M : Host.Core) (n : Nat) (s t : M.State) (h : M.step s = .next t) :
    M.run (n + 1) s = M.run n t := by
  rw [Host.Core.run, h]

/-- A longer run that goes on has a first step and a run behind it. -/
theorem next_of_run_succ (M : Host.Core) (n : Nat) (s u : M.State) (h : M.run (n + 1) s = .next u) :
    ∃ t, M.step s = .next t ∧ M.run n t = .next u := by
  rw [Host.Core.run] at h
  split at h
  · exact ⟨_, ‹_›, h⟩
  · cases h
  · cases h

/-- A system with a shared BUF takes no step. -/
theorem System.stepAt_shared (sys : System) (k : Nat) (h : ¬ sys.ownBuffers) :
    sys.stepAt k = .refused .aliasedBuffer := by
  simp [System.stepAt, h]

/-- A step of an instance alone is its step in the system. -/
theorem System.stepAt_next (sys : System) (k : Nat) (a : Attached) (t : State) (h : sys.ownBuffers)
    (ha : sys[k]? = some a) (ht : step a.machine = .next t) :
    sys.stepAt k = .next (sys.set k { a with machine := t }) := by
  simp [System.stepAt, h, ha, ht]

/-- What a step that gives a next system has done: one instance has taken its own step, or there is no instance `k`. -/
theorem System.stepAt_cases (sys sys' : System) (k : Nat) (h : sys.stepAt k = .next sys') :
    sys.ownBuffers ∧ ((sys[k]? = none ∧ sys' = sys) ∨
      ∃ a t, sys[k]? = some a ∧ step a.machine = .next t ∧ sys' = sys.set k { a with machine := t }) := by
  unfold System.stepAt at h
  split at h
  · rename_i hb
    refine ⟨hb, ?_⟩
    split at h
    · exact .inl ⟨‹_›, by simpa using h.symm⟩
    · rename_i a ha
      split at h
      · exact .inr ⟨a, _, ha, ‹_›, by simpa using h.symm⟩
      · cases h
      · cases h
  · cases h

/-- Which BUF each instance is attached to does not change. -/
theorem System.stepAt_buffers (sys sys' : System) (k : Nat) (h : sys.stepAt k = .next sys') :
    sys'.map (·.buffer) = sys.map (·.buffer) := by
  obtain ⟨-, ⟨-, rfl⟩ | ⟨a, t, ha, -, rfl⟩⟩ := System.stepAt_cases sys sys' k h
  · rfl
  · obtain ⟨hk, rfl⟩ := List.getElem?_eq_some_iff.mp ha
    apply List.ext_getElem (by simp)
    intro i h1 h2
    by_cases hi : k = i
    · subst hi; simp
    · simp [hi]

end Sys2Proof.Machine
end

