-- ==== Sys2Proof/Laws/State.lean ====
section
/-! SUPPORT. One lemma per field per update of State, and what `bufByte` depends on. -/

namespace Sys2Proof.Machine

variable (s : State)

@[simp] theorem State.taken_host (rest : List Input) : (s.taken rest).host = s.host := rfl
@[simp] theorem State.taken_buf (rest : List Input) : (s.taken rest).buf = s.buf := rfl
@[simp] theorem State.taken_epoch (rest : List Input) : (s.taken rest).epoch = s.epoch := rfl
@[simp] theorem State.taken_inputs (rest : List Input) : (s.taken rest).inputs = rest := rfl
@[simp] theorem State.taken_rsp (rest : List Input) : (s.taken rest).rsp = none := rfl

@[simp] theorem State.present_host (w : ReqWord) : (s.present w).host = s.host := rfl
@[simp] theorem State.present_buf (w : ReqWord) : (s.present w).buf = s.buf := rfl
@[simp] theorem State.present_epoch (w : ReqWord) : (s.present w).epoch = s.epoch := rfl
@[simp] theorem State.present_inputs (w : ReqWord) : (s.present w).inputs = .request w :: s.inputs := rfl
@[simp] theorem State.present_rsp (w : ReqWord) : (s.present w).rsp = s.rsp := rfl

@[simp] theorem State.outsideWrite_host (a : Nat) (b : Byte) : (s.outsideWrite a b).host = s.host := rfl
@[simp] theorem State.outsideWrite_buf (a : Nat) (b : Byte) : (s.outsideWrite a b).buf = s.buf.write a b := rfl
@[simp] theorem State.outsideWrite_epoch (a : Nat) (b : Byte) : (s.outsideWrite a b).epoch = s.epoch := rfl
@[simp] theorem State.outsideWrite_inputs (a : Nat) (b : Byte) : (s.outsideWrite a b).inputs = s.inputs := rfl
@[simp] theorem State.outsideWrite_rsp (a : Nat) (b : Byte) : (s.outsideWrite a b).rsp = s.rsp := rfl

@[simp] theorem State.afterReset_host : s.afterReset.host = s.host := rfl
@[simp] theorem State.afterReset_buf : s.afterReset.buf = [] := rfl
@[simp] theorem State.afterReset_epoch : s.afterReset.epoch = s.epoch + 1 := rfl
@[simp] theorem State.afterReset_inputs : s.afterReset.inputs = s.inputs := rfl
@[simp] theorem State.afterReset_rsp : s.afterReset.rsp = none := rfl

@[simp] theorem State.withFetchWord_eq (nbits w : Nat) :
    s.withFetchWord nbits w = s.present (tableRequest nbits w) := rfl

/-- What the taken state of a freshly presented request is: the response port is cleared, nothing else. -/
@[simp] theorem State.present_taken (w : ReqWord) : (s.present w).taken s.inputs = { s with rsp := none } := rfl

/-- `bufByte` reads BUF and the free value's counter, nothing else. -/
theorem State.bufByte_congr {s t : State} (hb : t.buf = s.buf) (he : t.epoch = s.epoch) (a : Nat) :
    t.bufByte a = s.bufByte a := by
  unfold State.bufByte; rw [hb, he]

@[simp] theorem State.bufByte_setRsp (p : Option Response) (a : Nat) :
    State.bufByte { s with rsp := p } a = s.bufByte a := rfl

@[simp] theorem State.bufByte_setHost (h : HostOrder) (a : Nat) :
    State.bufByte { s with host := h } a = s.bufByte a := rfl

@[simp] theorem State.bufByte_taken (rest : List Input) (a : Nat) : (s.taken rest).bufByte a = s.bufByte a := rfl

@[simp] theorem State.bufByte_present (w : ReqWord) (a : Nat) : (s.present w).bufByte a = s.bufByte a := rfl

/-- A byte that nothing has written since reset is the free value. -/
theorem State.bufByte_unwritten {s : State} {a : Nat} (h : s.buf.read? a = none) :
    s.bufByte a = Config.unwrittenByte s.epoch a := by
  simp [State.bufByte, h]

/-- A written byte is what was written. -/
theorem State.bufByte_written {s : State} {a : Nat} {b : Byte} (h : s.buf.read? a = some b) : s.bufByte a = b := by
  simp [State.bufByte, h]

end Sys2Proof.Machine
end

