-- ==== Sys2Proof/Laws/Memory.lean ====
section
/-! SUPPORT. The laws of BUF: a read after a write, the canonical form, and that equal contents are equal data. -/

namespace Sys2Proof.Machine

@[simp] theorem Memory.read?_nil (a : Nat) : Memory.read? [] a = none := rfl

@[simp] theorem Memory.read?_cons (c : Host.Cell) (m : Memory) (a : Nat) :
    Memory.read? (c :: m) a = if a = c.1 then some c.2 else Memory.read? m a := rfl

/-- A read after a write: the byte written at its offset, what stood there everywhere else. -/
theorem Memory.read?_write (m : Memory) (a : Nat) (b : Byte) (x : Nat) :
    (m.write a b).read? x = if x = a then some b else m.read? x := by
  induction m with
  | nil => simp [Memory.write]
  | cons c m ih =>
    obtain ⟨a', b'⟩ := c
    unfold Memory.write
    split
    · simp
    · split
      · next h => subst h; by_cases hx : x = a <;> simp [hx]
      · next h1 h2 =>
        simp only [Memory.read?_cons, ih]
        by_cases hx : x = a
        · subst hx; simp [h2]
        · simp [hx]

/-- Every offset a write leaves in the list is the one written or was there before. -/
theorem Memory.mem_write {m : Memory} {a : Nat} {b : Byte} {c : Host.Cell} (h : c ∈ m.write a b) :
    c = (a, b) ∨ c ∈ m := by
  induction m with
  | nil => simpa [Memory.write] using h
  | cons d m ih =>
    unfold Memory.write at h
    split at h
    · simpa using h
    · split at h
      · rcases List.mem_cons.1 h with h | h
        · exact .inl h
        · exact .inr (List.mem_cons_of_mem _ h)
      · rcases List.mem_cons.1 h with h | h
        · exact .inr (h ▸ List.mem_cons_self)
        · exact (ih h).imp id (List.mem_cons_of_mem _)

/-- A write keeps the offsets rising. -/
theorem Memory.write_rising {m : Memory} (h : m.Pairwise (fun x y => x.1 < y.1)) (a : Nat) (b : Byte) :
    (m.write a b).Pairwise (fun x y => x.1 < y.1) := by
  induction m with
  | nil => simp [Memory.write]
  | cons d m ih =>
    obtain ⟨hd, hm⟩ := List.pairwise_cons.1 h
    unfold Memory.write
    split
    · next hlt =>
      refine List.pairwise_cons.2 ⟨fun x hx => ?_, h⟩
      rcases List.mem_cons.1 hx with rfl | hx
      · exact hlt
      · exact lt_trans hlt (hd x hx)
    · split
      · next heq => exact List.pairwise_cons.2 ⟨fun x hx => by simpa [heq] using hd x hx, hm⟩
      · next hlt hne =>
        refine List.pairwise_cons.2 ⟨fun x hx => ?_, ih hm⟩
        rcases Memory.mem_write hx with rfl | hx
        · show d.1 < a
          omega
        · exact hd x hx

/-- A write inside BUF keeps the canonical form. -/
theorem Memory.write_wf {m : Memory} (h : m.wf) {a : Nat} (ha : a < Config.bufBytes) (b : Byte) :
    (m.write a b).wf :=
  ⟨Memory.write_rising h.1 a b, fun _ hc => (Memory.mem_write hc).elim (fun e => e ▸ ha) (h.2 _)⟩

theorem Memory.read?_none_of_below {m : Memory} {a : Nat} (h : ∀ c ∈ m, a < c.1) : m.read? a = none := by
  induction m with
  | nil => rfl
  | cons c m ih =>
    have := h c List.mem_cons_self
    simp [ih fun d hd => h d (List.mem_cons_of_mem _ hd), this.ne]

/-- Equal contents are equal data, in canonical form. -/
theorem Memory.ext_of_wf {m m' : Memory} (h : m.wf) (h' : m'.wf) (e : ∀ a, m.read? a = m'.read? a) : m = m' := by
  obtain ⟨h, -⟩ := h
  obtain ⟨h', -⟩ := h'
  induction m generalizing m' with
  | nil =>
    cases m' with
    | nil => rfl
    | cons c m' => simpa using e c.1
  | cons c m ih =>
    cases m' with
    | nil => simpa using (e c.1).symm
    | cons c' m' =>
      obtain ⟨hc, hm⟩ := List.pairwise_cons.1 h
      obtain ⟨hc', hm'⟩ := List.pairwise_cons.1 h'
      have hkey : c.1 = c'.1 := by
        rcases lt_trichotomy c.1 c'.1 with hlt | heq | hgt
        · have := e c.1
          rw [Memory.read?_none_of_below (m := c' :: m') (by
            intro d hd
            rcases List.mem_cons.1 hd with rfl | hd
            · exact hlt
            · exact lt_trans hlt (hc' d hd))] at this
          simp at this
        · exact heq
        · have := e c'.1
          rw [Memory.read?_none_of_below (m := c :: m) (by
            intro d hd
            rcases List.mem_cons.1 hd with rfl | hd
            · exact hgt
            · exact lt_trans hgt (hc d hd))] at this
          simp at this
      have hval : c.2 = c'.2 := by simpa [hkey] using e c.1
      have hcc : c = c' := Prod.ext hkey hval
      subst hcc
      congr 1
      refine ih (fun a => ?_) hm hm'
      by_cases ha : a = c.1
      · subst ha
        rw [Memory.read?_none_of_below hc, Memory.read?_none_of_below hc']
      · simpa [ha] using e a

/-! ## Accesses of several bytes -/

/-- A read after a store of `n` bytes: its bytes inside, what stood there outside. -/
theorem writeLE_read? (m : Memory) (addr n v x : Nat) :
    (writeLE m addr n v).read? x =
      if addr ≤ x ∧ x < addr + n then some (BitVec.ofNat 8 (v / 2 ^ (8 * (x - addr)))) else m.read? x := by
  induction n generalizing m addr v with
  | zero => simp [writeLE]
  | succ n ih =>
    rw [writeLE, ih, Memory.read?_write]
    by_cases h1 : addr + 1 ≤ x ∧ x < addr + 1 + n
    · rw [if_pos h1, if_pos ⟨by omega, by omega⟩]
      have : 8 * (x - addr) = 8 + 8 * (x - (addr + 1)) := by omega
      rw [this, pow_add, Nat.div_div_eq_div_mul]
    · rw [if_neg h1]
      by_cases hx : x = addr
      · subst hx; simp
      · rw [if_neg hx, if_neg (by omega)]

/-- A store inside BUF keeps the canonical form. -/
theorem writeLE_wf {m : Memory} (h : m.wf) {addr n : Nat} (hb : addr + n ≤ Config.bufBytes) (v : Nat) :
    (writeLE m addr n v).wf := by
  induction n generalizing m addr v with
  | zero => exact h
  | succ n ih => exact ih (Memory.write_wf h (by omega) _) (by omega) _

/-- A read of `n` bytes is an unsigned integer of `8n` bits. -/
theorem readLE_lt (s : State) (addr n : Nat) : readLE s addr n < 2 ^ (8 * n) := by
  induction n generalizing addr with
  | zero => simp [readLE]
  | succ n ih =>
    have h1 := (s.bufByte addr).isLt
    have h2 := ih (addr + 1)
    have h3 : (2 : Nat) ^ (8 * (n + 1)) = 2 ^ 8 * 2 ^ (8 * n) := by rw [← pow_add]; congr 1; omega
    rw [readLE, h3]
    omega

/-- A read depends on its own bytes alone. -/
theorem readLE_congr {s t : State} {addr n : Nat} (h : ∀ a, addr ≤ a → a < addr + n → t.bufByte a = s.bufByte a) :
    readLE t addr n = readLE s addr n := by
  induction n generalizing addr with
  | zero => rfl
  | succ n ih =>
    rw [readLE, readLE, h addr le_rfl (by omega), ih fun a h1 h2 => h a (by omega) (by omega)]

/-- A read whose bytes are those of `v` is `v`, reduced to its `8n` bits. -/
theorem readLE_of_bytes {s : State} {addr n v : Nat}
    (h : ∀ k, k < n → s.bufByte (addr + k) = BitVec.ofNat 8 (v / 2 ^ (8 * k))) :
    readLE s addr n = v % 2 ^ (8 * n) := by
  induction n generalizing addr v with
  | zero => simp [readLE, Nat.mod_one]
  | succ n ih =>
    have h0 : s.bufByte addr = BitVec.ofNat 8 v := by simpa using h 0 (by omega)
    have h1 : readLE s (addr + 1) n = v / 2 ^ 8 % 2 ^ (8 * n) := by
      refine ih fun k hk => ?_
      have := h (k + 1) (by omega)
      rw [show addr + (k + 1) = addr + 1 + k by omega] at this
      rw [this, Nat.div_div_eq_div_mul, ← pow_add]
      congr 3; omega
    have h2 : 8 * (n + 1) = 8 + 8 * n := by omega
    rw [readLE, h0, h1, h2, pow_add, Nat.mod_mul, BitVec.toNat_ofNat]

end Sys2Proof.Machine
end

