-- ==== Sys2Proof/Laws/Ops.lean ====
section
/-! SUPPORT. What the shared operations can do, each said once. -/

namespace Sys2Proof.Machine

@[simp] theorem respond_eq (r : Word) (s : State) : respond r s = .next { s with rsp := some ⟨.ok, r⟩ } := rfl

@[simp] theorem raise_eq (c : Cause) (s : State) : raise c s = .next { s with rsp := some ⟨c.status, 0⟩ } := rfl

theorem Cause.status_ne_ok (c : Cause) : c.status ≠ .ok := by cases c <;> decide

theorem memRead_inBounds {s : State} {off n : Nat} (h : off + n ≤ 8) : memRead s off n = .ok (readLE s off n) := by
  simp [memRead]; omega

theorem memRead_outOfBounds {s : State} {off n : Nat} (h : 8 < off + n) :
    memRead s off n = .error .contractViolation := by
  simp [memRead]; omega

theorem memWrite_inBounds {s : State} {off n : Nat} (h : off + n ≤ 8) (v : Nat) :
    memWrite s off n v = .ok { s with buf := writeLE s.buf off n v } := by
  simp [memWrite]; omega

theorem memWrite_outOfBounds {s : State} {off n : Nat} (h : 8 < off + n) (v : Nat) :
    memWrite s off n v = .error .contractViolation := by
  simp [memWrite]; omega

/-- A load in bounds delivers its value and changes nothing else. -/
theorem load_inBounds {off n : Nat} (h : off + n ≤ 8) (ext : Nat → Word) (s : State) :
    load off n ext s = .next { s with rsp := some ⟨.ok, ext (readLE s off n)⟩ } := by
  simp [load, memRead_inBounds h]

/-- A load out of bounds raises ContractViolation. -/
theorem load_outOfBounds {off n : Nat} (h : 8 < off + n) (ext : Nat → Word) (s : State) :
    load off n ext s = .next { s with rsp := some ⟨.contractViolation, 0⟩ } := by
  simp [load, memRead_outOfBounds h, Cause.status]

/-- A store in bounds writes its bytes, and its response is `rsp(OK, 0)`. -/
theorem store_inBounds {off n : Nat} (h : off + n ≤ 8) (v : Nat) (s : State) :
    store off n v s = .next { s with buf := writeLE s.buf off n v, rsp := some ⟨.ok, 0⟩ } := by
  simp [store, memWrite_inBounds h]

/-- A store out of bounds raises ContractViolation and writes nothing. -/
theorem store_outOfBounds {off n : Nat} (h : 8 < off + n) (v : Nat) (s : State) :
    store off n v s = .next { s with rsp := some ⟨.contractViolation, 0⟩ } := by
  simp [store, memWrite_outOfBounds h, Cause.status]

/-- A byte of BUF after a store's bytes are written. -/
theorem bufByte_writeLE (s : State) (off n v : Nat) (p : Option Response) (a : Nat) :
    State.bufByte { s with buf := writeLE s.buf off n v, rsp := p } a =
      if off ≤ a ∧ a < off + n then BitVec.ofNat 8 (v / 2 ^ (8 * (a - off))) else s.bufByte a := by
  unfold State.bufByte
  simp only [writeLE_read?]
  split <;> simp

/-- What a meaning can do, said once: it answers a well-formed response, and writes BUF only as a store in bounds. -/
inductive Effect (s : State) : Result → Prop
  /-- A response, and nothing else changed. -/
  | answered (p : Response) (h : p.wf) : Effect s (.next { s with rsp := some p })
  /-- A store in bounds. -/
  | stored (off n v : Nat) (h : off + n ≤ 8) :
      Effect s (.next { s with buf := writeLE s.buf off n v, rsp := some ⟨.ok, 0⟩ })

theorem effect_respond (r : Word) (s : State) : Effect s (respond r s) :=
  .answered ⟨.ok, r⟩ fun h => absurd rfl h

theorem effect_raise (c : Cause) (s : State) : Effect s (raise c s) := .answered ⟨c.status, 0⟩ fun _ => rfl

theorem effect_load (off n : Nat) (ext : Nat → Word) (s : State) : Effect s (load off n ext s) := by
  unfold load
  split
  · exact effect_respond _ _
  · exact effect_raise _ _

theorem effect_store (off n v : Nat) (s : State) : Effect s (store off n v s) := by
  by_cases h : off + n ≤ 8
  · rw [store_inBounds h]; exact .stored off n v h
  · rw [store_outOfBounds (by omega)]; exact .answered _ fun _ => rfl

/-- Every meaning has such an effect. -/
theorem exec_effect (i : Instr) (s : State) : Effect s (exec i s) := by
  cases i
  case dlcenc len =>
    show Effect s (execDlcenc len s)
    unfold execDlcenc
    split
    · exact effect_raise _ _
    · exact effect_respond _ _
  case dlcdec dlc =>
    show Effect s (execDlcdec dlc s)
    unfold execDlcdec
    split
    · exact effect_raise _ _
    · exact effect_respond _ _
  all_goals first
    | exact effect_respond _ _
    | exact effect_load _ _ _ _
    | exact effect_store _ _ _ _

/-- Performing any word, reserved ones too, has such an effect. -/
theorem performWord_effect (w : ReqWord) (s : State) : Effect s (performWord w s) := by
  unfold performWord
  split
  · exact exec_effect _ _
  · exact effect_raise _ _

/-- The step of a state with nothing presented. -/
theorem step_idle {s : State} (h : s.inputs = []) : step s = .next (s.taken []) := by
  simp [step, h, idle]

/-- The step of a state with an input waiting. -/
theorem step_serve {s : State} {x : Input} {rest : List Input} (h : s.inputs = x :: rest) :
    step s = serve x (s.taken rest) := by
  simp [step, h]

/-- The step of a state to which a request has just been presented. -/
theorem step_present (s : State) (w : ReqWord) : step (s.present w) = performWord w { s with rsp := none } := rfl

end Sys2Proof.Machine
end

