-- ==== Sys2Proof/Laws/PerInstr.lean ====
section
/-! SUPPORT. One lemma per constructor of Instr: the request word of an instruction carries the `op` of its row of
30_encoding.md R37, and that row is in the decoder's table. -/

namespace Sys2Proof.Laws.OpField

/-- The encoder's word has the operation's `op`, and the decoder's table has a row for it. -/
def Statement (i : Instr) : Prop := reqOp (encode i) = i.op ∧ (opTable.lookup i.op).isSome = true

/-- The first half holds of every instruction alike. -/
theorem op_encode (i : Instr) : reqOp (encode i) = i.op := reqOp_reqWord _ _ _

theorem hostle : Statement (.hostle) := ⟨op_encode _, rfl⟩
theorem bflsb : Statement (.bflsb) := ⟨op_encode _, rfl⟩
theorem bswap16 (x : _) : Statement (.bswap16 x) := ⟨op_encode _, rfl⟩
theorem bswap32 (x : _) : Statement (.bswap32 x) := ⟨op_encode _, rfl⟩
theorem clz16 (x : _) : Statement (.clz16 x) := ⟨op_encode _, rfl⟩
theorem ldu8 (x : _) : Statement (.ldu8 x) := ⟨op_encode _, rfl⟩
theorem ldu16 (x : _) : Statement (.ldu16 x) := ⟨op_encode _, rfl⟩
theorem ldu24 (x : _) : Statement (.ldu24 x) := ⟨op_encode _, rfl⟩
theorem ldu32 (x : _) : Statement (.ldu32 x) := ⟨op_encode _, rfl⟩
theorem ldi16 (x : _) : Statement (.ldi16 x) := ⟨op_encode _, rfl⟩
theorem ldi24 (x : _) : Statement (.ldi24 x) := ⟨op_encode _, rfl⟩
theorem ldi32 (x : _) : Statement (.ldi32 x) := ⟨op_encode _, rfl⟩
theorem stu8 (x : _) (y : _) : Statement (.stu8 x y) := ⟨op_encode _, rfl⟩
theorem stu16 (x : _) (y : _) : Statement (.stu16 x y) := ⟨op_encode _, rfl⟩
theorem stu24 (x : _) (y : _) : Statement (.stu24 x y) := ⟨op_encode _, rfl⟩
theorem stu32 (x : _) (y : _) : Statement (.stu32 x y) := ⟨op_encode _, rfl⟩
theorem sti16 (x : _) (y : _) : Statement (.sti16 x y) := ⟨op_encode _, rfl⟩
theorem sti24 (x : _) (y : _) : Statement (.sti24 x y) := ⟨op_encode _, rfl⟩
theorem sti32 (x : _) (y : _) : Statement (.sti32 x y) := ⟨op_encode _, rfl⟩
theorem f32dec (x : _) : Statement (.f32dec x) := ⟨op_encode _, rfl⟩
theorem f16dec (x : _) : Statement (.f16dec x) := ⟨op_encode _, rfl⟩
theorem bf16dec (x : _) : Statement (.bf16dec x) := ⟨op_encode _, rfl⟩
theorem bf24dec (x : _) : Statement (.bf24dec x) := ⟨op_encode _, rfl⟩
theorem un8dec (x : _) : Statement (.un8dec x) := ⟨op_encode _, rfl⟩
theorem un16dec (x : _) : Statement (.un16dec x) := ⟨op_encode _, rfl⟩
theorem un24dec (x : _) : Statement (.un24dec x) := ⟨op_encode _, rfl⟩
theorem f32enc (x : _) : Statement (.f32enc x) := ⟨op_encode _, rfl⟩
theorem f16enc (x : _) : Statement (.f16enc x) := ⟨op_encode _, rfl⟩
theorem bf16enc (x : _) : Statement (.bf16enc x) := ⟨op_encode _, rfl⟩
theorem bf24enc (x : _) : Statement (.bf24enc x) := ⟨op_encode _, rfl⟩
theorem un8enc (x : _) : Statement (.un8enc x) := ⟨op_encode _, rfl⟩
theorem un16enc (x : _) : Statement (.un16enc x) := ⟨op_encode _, rfl⟩
theorem un24enc (x : _) : Statement (.un24enc x) := ⟨op_encode _, rfl⟩
theorem hdrenc (x : _) (y : _) : Statement (.hdrenc x y) := ⟨op_encode _, rfl⟩
theorem hdrdec (x : _) : Statement (.hdrdec x) := ⟨op_encode _, rfl⟩
theorem dlcenc (x : _) : Statement (.dlcenc x) := ⟨op_encode _, rfl⟩
theorem dlcdec (x : _) : Statement (.dlcdec x) := ⟨op_encode _, rfl⟩

end Sys2Proof.Laws.OpField
end

