-- ==== Sys2Proof/Laws/Requester.lean ====
section
/-! SUPPORT. The content of a Packet record: its meaningful bytes, and the filling of a received one. -/

namespace Sys2Proof.Machine

@[simp] theorem fillContent_getElem (loaded : List Byte) (beyond : Vector Byte Config.maxContent) (i : Nat)
    (h : i < Config.maxContent) : (fillContent loaded beyond)[i] = (loaded[i]?).getD beyond[i] := by
  simp [fillContent]

theorem Packet.length_meaningful (p : Packet) (h : p.wf) : p.meaningful.length = p.contentLength := by
  simp [Packet.meaningful, h]

theorem Packet.getElem?_meaningful (p : Packet) (i : Nat) (h : i < Config.maxContent) (hi : i < p.contentLength) :
    p.meaningful[i]? = some p.content[i] := by
  simp [Packet.meaningful, hi, h]

/-- Filling with a record's meaningful bytes gives a content that agrees with the record's. -/
theorem Packet.fillContent_meaningful (p : Packet) (beyond : Vector Byte Config.maxContent) (i : Nat)
    (h : i < Config.maxContent) (hi : i < p.contentLength) :
    (fillContent p.meaningful beyond)[i] = p.content[i] := by
  simp [p.getElem?_meaningful i h hi]

end Sys2Proof.Machine
end

