-- ==== Sys2Proof/Tests/Slice0.lean ====
section
/-! SUPPORT. The model's own tests. Expected words and results come from the spec: the examples of the rules and
spec/95_test_vectors.md. Then, for each obligation with hypotheses, a witness that meets them. -/

namespace Sys2Proof.Tests

open Sys2Proof Sys2Proof.Machine

/-- A machine whose BUF holds the given eight bytes, nothing waiting, `HOST_LE` true, the other constant false. -/
def machineWith (bytes : List Nat) : State where
  host := ⟨true, false⟩
  buf := bytes.zipIdx.map fun (b, a) => (a, BitVec.ofNat 8 b)
  epoch := 0
  inputs := []
  rsp := none

/-- `11 22 33 44 55 66 77 88` (95 section 2.2). -/
def demo : State := machineWith [0x11, 0x22, 0x33, 0x44, 0x55, 0x66, 0x77, 0x88]

/-- All zero (95 section 2.2, stores). -/
def zeros : State := machineWith [0, 0, 0, 0, 0, 0, 0, 0]

/-- One step on a presented word gives this status and result and leaves BUF alone. -/
def answers (w : Nat) (st : Status) (r : Word) : Bool :=
  match step (demo.withFetchWord 48 w) with
  | .next t =>
    match t.rsp with
    | some p => decide (p.status = st) && decide (p.r = r) && decide (t.buf = demo.buf)
    | none => false
  | .fault _ => false
  | .refused _ => false

/-- One step on a presented word, from a BUF of zeros, gives this status, result 0 and these bytes. -/
def stores (w : Nat) (st : Status) (bytes : List Nat) : Bool :=
  match step (zeros.withFetchWord 48 w) with
  | .next t => decide (t.rsp = some ⟨st, 0⟩ ∧ t.buf = (machineWith bytes).buf)
  | .fault _ => false
  | .refused _ => false

/-! ## Well-formedness: an ill-formed term for each check -/

theorem test_wf_refuses_wide_load_offset :
    [Instr.ldu8 256, .ldu16 256, .ldu24 256, .ldu32 256, .ldi16 256, .ldi24 256, .ldi32 256].map Instr.wf =
      List.replicate 7 false := by decide

theorem test_wf_refuses_wide_store_offset :
    [Instr.stu8 256 0, .stu16 256 0, .stu24 256 0, .stu32 256 0, .sti16 256 0, .sti24 256 0, .sti32 256 0].map
      Instr.wf = List.replicate 7 false := by decide

theorem test_wf_refuses_wide_content_length : (Instr.dlcenc 256).wf = false := by decide

theorem test_wf_refuses_wide_dlc : (Instr.dlcdec 256).wf = false := by decide

/-! ## Decoding: a word for every constructor, from 30_encoding.md R35 and R37, garbage in the ignored bits -/

theorem test_decode_portability :
    [decode 0x01FFFFFFFFFF,
      decode 0x02FFFFFFFFFF,
      decode 0x03FFABCD1234,
      decode 0x040012345678,
      decode 0x05FFFFFF0155] =
    [.ok (.hostle),
      .ok (.bflsb),
      .ok (.bswap16 0x1234),
      .ok (.bswap32 0x12345678),
      .ok (.clz16 0x0155)] := by decide

theorem test_decode_loads :
    [decode 0x1007FFFFFFFF,
      decode 0x1106FFFFFFFF,
      decode 0x120500000000,
      decode 0x130400000000,
      decode 0x15FF00000000,
      decode 0x160100000000,
      decode 0x178000000000] =
    [.ok (.ldu8 7),
      .ok (.ldu16 6),
      .ok (.ldu24 5),
      .ok (.ldu32 4),
      .ok (.ldi16 255),
      .ok (.ldi24 1),
      .ok (.ldi32 128)] := by decide

theorem test_decode_stores :
    [decode 0x2000000001FF,
      decode 0x21010000BEEF,
      decode 0x2203AB123456,
      decode 0x2304DEADBEEF,
      decode 0x2500FFFF8000,
      decode 0x2605FF800001,
      decode 0x27FF80000000] =
    [.ok (.stu8 0 0xFF),
      .ok (.stu16 1 0xBEEF),
      .ok (.stu24 3 0x123456),
      .ok (.stu32 4 0xDEADBEEF),
      .ok (.sti16 0 0x8000),
      .ok (.sti24 5 0x800001),
      .ok (.sti32 255 0x80000000)] := by decide

theorem test_decode_decoders :
    [decode 0x300041480000,
      decode 0x31FFFFFF3A00,
      decode 0x3200FFFF4148,
      decode 0x3300FF414800,
      decode 0x3400FFFFFF80,
      decode 0x3500FFFF8000,
      decode 0x3600FF800000] =
    [.ok (.f32dec 0x41480000),
      .ok (.f16dec 0x3A00),
      .ok (.bf16dec 0x4148),
      .ok (.bf24dec 0x414800),
      .ok (.un8dec 0x80),
      .ok (.un16dec 0x8000),
      .ok (.un24dec 0x800000)] := by decide

theorem test_decode_encoders :
    [decode 0x400041480000,
      decode 0x41FF3F400000,
      decode 0x420040490FD0,
      decode 0x43003DCCCCCD,
      decode 0x44003F000000,
      decode 0x45003E800000,
      decode 0x46003F400000] =
    [.ok (.f32enc 0x41480000),
      .ok (.f16enc 0x3F400000),
      .ok (.bf16enc 0x40490FD0),
      .ok (.bf24enc 0x3DCCCCCD),
      .ok (.un8enc 0x3F000000),
      .ok (.un16enc 0x3E800000),
      .ok (.un24enc 0x3F400000)] := by decide

theorem test_decode_header :
    [decode 0x5000FFFEFEAC,
      decode 0x500000010001,
      decode 0x5100FFFFF802,
      decode 0x52FF00000106,
      decode 0x530000000108] =
    [.ok (.hdrenc .low ⟨0x55, true, false, false⟩),
      .ok (.hdrenc .high ⟨0, false, false, true⟩),
      .ok (.hdrdec 0x002),
      .ok (.dlcenc 6),
      .ok (.dlcdec 8)] := by decide

theorem test_decode_reserved :
    decode 0x000000000000 = .error (.reservedOp 0x00) ∧ decode 0x140000000000 = .error (.reservedOp 0x14) ∧
      decode 0x2400000000AA = .error (.reservedOp 0x24) ∧ decode 0xFFFFFFFFFFFF = .error (.reservedOp 0xFF) := by decide

theorem test_encode_words :
    encode (.f16enc 0x3F400000) = 0x41003F400000 ∧ encode (.stu16 6 0x3A00) = 0x210600003A00 ∧
      encode (.hdrenc .high ⟨0x55, true, false, false⟩) = 0x5000000102AC ∧ encode (.ldu32 2) = 0x130200000000 := by decide

theorem test_decodeTableWord :
    decodeTableWord 48 0x130400000000 = some (.ldu32 4) ∧ decodeTableWord 48 0x140000000000 = none := by decide

/-! ## One step per operation: the rules' examples and section 2 of 95 -/

theorem test_hostle : answers 0x010000000000 .ok 0x00000001 = true := by decide
theorem test_bflsb : answers 0x020000000000 .ok 0x00000000 = true := by decide
theorem test_bswap16 : answers 0x0300ABCD00FF .ok 0x0000FF00 = true := by decide
theorem test_bswap32 : answers 0x040012345678 .ok 0x78563412 = true := by decide
theorem test_clz16 : answers 0x050000000155 .ok 0x00000007 = true := by decide
theorem test_clz16_corner : answers 0x0500FFFF0000 .ok 0x00000010 = true := by decide
theorem test_ldu8 : answers 0x100700000000 .ok 0x00000088 = true := by decide
theorem test_ldu8_corner : answers 0x100800000000 .contractViolation 0x00000000 = true := by decide
theorem test_ldu16 : answers 0x110600000000 .ok 0x00008877 = true := by decide
theorem test_ldu16_corner : answers 0x110700000000 .contractViolation 0x00000000 = true := by decide
theorem test_ldu24 : answers 0x120500000000 .ok 0x00887766 = true := by decide
theorem test_ldu24_corner : answers 0x120600000000 .contractViolation 0x00000000 = true := by decide
theorem test_ldu32 : answers 0x130100000000 .ok 0x55443322 = true := by decide
theorem test_ldu32_corner : answers 0x13FF00000000 .contractViolation 0x00000000 = true := by decide
theorem test_ldi16 : answers 0x150600000000 .ok 0xFFFF8877 = true := by decide
theorem test_ldi16_corner : answers 0x150000000000 .ok 0x00002211 = true := by decide
theorem test_ldi24 : answers 0x160500000000 .ok 0xFF887766 = true := by decide
theorem test_ldi24_corner : answers 0x160100000000 .ok 0x00443322 = true := by decide
theorem test_ldi32 : answers 0x170400000000 .ok 0x88776655 = true := by decide
theorem test_f32dec : answers 0x30007FA00001 .ok 0x7FA00001 = true := by decide
theorem test_f16dec : answers 0x310000000155 .ok 0x37AA8000 = true := by decide
theorem test_f16dec_corner : answers 0x31000000FE01 .ok 0xFFC02000 = true := by decide
theorem test_bf16dec : answers 0x3200FFFF4148 .ok 0x41480000 = true := by decide
theorem test_bf24dec : answers 0x330000421266 .ok 0x42126600 = true := by decide
theorem test_un8dec : answers 0x340000000080 .ok 0x3F008081 = true := by decide
theorem test_un16dec : answers 0x350000005555 .ok 0x3EAAAAAB = true := by decide
theorem test_un24dec : answers 0x360000FFFFFE .ok 0x3F7FFFFF = true := by decide
theorem test_f32enc : answers 0x400080000000 .ok 0x80000000 = true := by decide
theorem test_f16enc : answers 0x4100387FE000 .ok 0x00000400 = true := by decide
theorem test_f16enc_corner : answers 0x4100477FF000 .ok 0x00007C00 = true := by decide
theorem test_bf16enc : answers 0x42007FFF8000 .ok 0x00008000 = true := by decide
theorem test_bf16enc_corner : answers 0x42003F808000 .ok 0x00003F81 = true := by decide
theorem test_bf24enc : answers 0x43003F800080 .ok 0x003F8001 = true := by decide
theorem test_bf24enc_corner : answers 0x4300FFFFFFFF .ok 0x00000000 = true := by decide
theorem test_un8enc : answers 0x44003F000000 .ok 0x00000080 = true := by decide
theorem test_un8enc_corner : answers 0x44003F010101 .ok 0x00000080 = true := by decide
theorem test_un16enc : answers 0x45003E9A579A .ok 0x00004D2B = true := by decide
theorem test_un16enc_corner : answers 0x4500FFC00000 .ok 0x00000000 = true := by decide
theorem test_un24enc : answers 0x46003F7FFFFE .ok 0x00FFFFFD = true := by decide
theorem test_un24enc_corner : answers 0x46007F800000 .ok 0x00FFFFFF = true := by decide
theorem test_hdrenc : answers 0x500000000004 .ok 0x00000404 = true := by decide
theorem test_hdrenc_corner : answers 0x5000FFFFFFFF .ok 0x000003FF = true := by decide
theorem test_hdrdec : answers 0x5100000002AC .ok 0x000102AC = true := by decide
theorem test_hdrdec_corner : answers 0x5100FFFFF802 .ok 0x00010002 = true := by decide
theorem test_dlcenc : answers 0x520000000006 .ok 0x00000008 = true := by decide
theorem test_dlcenc_corner : answers 0x520000000007 .contractViolation 0x00000000 = true := by decide
theorem test_dlcdec : answers 0x530000000108 .ok 0x00000006 = true := by decide
theorem test_dlcdec_corner : answers 0x530000000001 .malformedFrame 0x00000000 = true := by decide
theorem test_reserved : answers 0x000000000000 .contractViolation 0x00000000 = true := by decide
theorem test_reserved_corner : answers 0x2400000000AA .contractViolation 0x00000000 = true := by decide

theorem test_stu8 : stores 0x2007000001FF .ok [0, 0, 0, 0, 0, 0, 0, 255] = true := by decide
theorem test_stu16 : stores 0x21010000BEEF .ok [0, 239, 190, 0, 0, 0, 0, 0] = true := by decide
theorem test_stu24 : stores 0x2203AB123456 .ok [0, 0, 0, 86, 52, 18, 0, 0] = true := by decide
theorem test_stu32 : stores 0x2304DEADBEEF .ok [0, 0, 0, 0, 239, 190, 173, 222] = true := by decide
theorem test_sti16 : stores 0x2500FFFF8000 .ok [0, 128, 0, 0, 0, 0, 0, 0] = true := by decide
theorem test_sti24 : stores 0x2605FF800001 .ok [0, 0, 0, 0, 0, 1, 0, 128] = true := by decide
theorem test_sti32 : stores 0x270080000000 .ok [0, 0, 0, 128, 0, 0, 0, 0] = true := by decide
theorem test_stu32_outOfBounds : stores 0x230501020304 .contractViolation [0, 0, 0, 0, 0, 0, 0, 0] = true := by decide
theorem test_stu24_outOfBounds : stores 0x220600000001 .contractViolation [0, 0, 0, 0, 0, 0, 0, 0] = true := by decide
theorem test_sti32_outOfBounds : stores 0x27FF00000001 .contractViolation [0, 0, 0, 0, 0, 0, 0, 0] = true := by decide

/-- 93 U3: the inputs on which the binary32 reading differs, with its values. -/
theorem test_binary32_reading :
    unormEnc .binary32 8 0x3B008080 = 1 ∧ unormEnc .binary32 8 0x3F010101 = 129 ∧
      unormEnc .binary32 16 0x3E9A579A = 19756 ∧ unormEnc .binary32 24 0x3F7FFFFE = 16777214 := by decide

/-- 90_conflicts.md C1: the source's decode sentence, as the other flag order. -/
theorem test_flag_order :
    identifier .peripheralHigh .low ⟨0, true, false, false⟩ = 0x404 ∧
      identifier .powerHigh .low ⟨0, true, false, false⟩ = 0x401 := by decide

/-- A byte that nothing has written since reset reads as the free value, and the load is answered OK. -/
theorem test_load_after_reset :
    step (State.reset.present (encode (.ldu8 3))) =
      .next { State.reset with rsp := some ⟨.ok, zext32 (BitVec.ofNat 8 (Config.unwrittenByte 0 3).toNat)⟩ } := by
  rfl

/-- 95 P3: the driver's write between requests. -/
theorem test_outside_write :
    (match step { demo with inputs := [.bufWrite 7 0x99] } with
      | .next t => decide (t.buf = (machineWith [0x11, 0x22, 0x33, 0x44, 0x55, 0x66, 0x77, 0x99]).buf ∧ t.rsp = none)
      | .fault _ => false
      | .refused _ => false) = true := by decide

/-- 30_encoding.md R40's examples, and 95 P1's first and sixth lines (`$5` the 12.5 of its fifth). -/
theorem test_assemble :
    assemble [] ⟨.f16enc, [.num 0x3F400000]⟩ = some 0x41003F400000 ∧
      assemble [] ⟨.stu16, [.num 6, .num 0x3A00]⟩ = some 0x210600003A00 ∧
      assemble [] ⟨.hdrenc, [.prio .low, .num 0x15, .num 0, .num 1, .num 0]⟩ = some 0x5000000000AA ∧
      assemble [0, 0, 0, 0, 0x41480000] ⟨.stu32, [.num 2, .result 5]⟩ = some 0x230241480000 ∧
      assemble [] ⟨.f32enc, [.float false 25 1]⟩ = some 0x400041480000 ∧
      assemble [] ⟨.hdrenc, [.prio .low, .num 128, .num 0, .num 1, .num 0]⟩ = none := by decide

/-- 30_encoding.md R41's 12.5, 42_float.md R84's 65520, 2^-25 and its binary32 subnormal `0x807FFFFF`; 2^-150 is
no binary32 number. -/
theorem test_float_literal :
    [floatLiteral false 25 1, floatLiteral false 65520 0, floatLiteral false 1 25, floatLiteral true 0x7FFFFF 149,
      floatLiteral false 1 150] = [some 0x41480000, some 0x477FF000, some 0x33000000, some 0x807FFFFF, none] := by decide

/-- 30_encoding.md R42's shape as a script: `F16ENC f32(0.75)`, then `STU16 6, $1[15:0]`. -/
theorem test_script :
    (runScript [⟨.f16enc, [.float false 3 2]⟩, ⟨.stu16, [.num 6, .slice 1 15 0]⟩] [] zeros).map
        (fun (ps, t) => (ps.map (·.r), (t.bufByte 6, t.bufByte 7))) =
      some ([0x00003A00, 0x00000000], (0x00, 0x3A)) := by decide

/-- 30_encoding.md R40: the textual forms it gives as examples. -/
theorem test_text :
    requestText 0x41003F400000 = "0x41003F400000".toList ∧
      Response.text ⟨.ok, 0x00003A00⟩ = "OK 0x00003A00".toList ∧
      Response.text ⟨.malformedFrame, 0⟩ = "MalformedFrame 0x00000000".toList := by decide

/-- 95 P1's frame. -/
def p1 : Packet := ⟨⟨0x15, false, true, false⟩, .low, 0x2A, 0x05, 6, #v[0x00, 0x00, 0x48, 0x41, 0x00, 0x3A]⟩

/-! ## Witnesses: for each obligation with hypotheses, a state and operands that meet them, at the clauses' boundaries -/

theorem witness_DecodeOfEncode : (Instr.stu24 255 0x123456).wf = true ∧ (Instr.dlcdec 255).wf = true := by decide

theorem witness_ReservedOpsRaise :
    isReservedOp (reqOp 0x0F0000000000).toNat = true ∧ isReservedOp (reqOp 0x540000000000).toNat = true ∧
      isReservedOp (reqOp 0x100000000000).toNat = false ∧ isReservedOp (reqOp 0x530000000000).toNat = false := by decide

theorem witness_IgnoredBitsNeverMatter :
    reqOp 0x1106FFFFFFFF = reqOp 0x110600000000 ∧ reqOff 0x1106FFFFFFFF = reqOff 0x110600000000 ∧
      reqA 0x1106FFFFFFFF &&& readMask (reqOp 0x1106FFFFFFFF).toNat = reqA 0x110600000000 &&& readMask 0x11 ∧
      readsOff (reqOp 0x5000FFFFFFFF).toNat = false ∧
      reqA 0x5000FFFFFFFF &&& readMask (reqOp 0x5000FFFFFFFF).toNat = reqA 0x5077000103FF &&& readMask 0x50 := by decide

theorem witness_StepRunsTheDecodedInstruction :
    { demo with inputs := [.request 0x110600000000] }.inputs = [.request 0x110600000000] ∧
      decode 0x110600000000 = .ok (.ldu16 6) := by decide

theorem witness_ByteSwap16 : (0x00007F7F : Word).toNat % 2 ^ 8 = (0x00007F7F : Word).toNat / 2 ^ 8 % 2 ^ 8 := by decide

theorem witness_CountLeadingZeros16 :
    (0xFFFF0000 : Word).extractLsb' 0 16 = 0 ∧ (0x8000 : Word).getLsbD 15 = true ∧ (0x0001 : Word).getLsbD 0 = true ∧
      ∀ j, j < 16 → 0 < j → (0x0001 : Word).getLsbD j = false := by decide

/-- The statuses that operations are answered with on `demo`. -/
def statuses (l : List Instr) : List (Option Status) := l.map fun i => (responseOf i demo).map (·.status)

/-- Each load at its last legal offset, then at the offset behind it. -/
theorem witness_UnsignedLoads :
    statuses [.ldu8 7, .ldu16 6, .ldu24 5, .ldu32 4] = List.replicate 4 (some .ok) ∧
      statuses [.ldu8 8, .ldu16 7, .ldu24 6, .ldu32 5] = List.replicate 4 (some .contractViolation) := by decide

theorem witness_SignedLoads :
    statuses [.ldi16 6, .ldi24 5, .ldi32 4] = List.replicate 3 (some .ok) ∧
      statuses [.ldi16 7, .ldi24 6, .ldi32 5] = List.replicate 3 (some .contractViolation) := by decide

/-- Each store at its last legal offset, then at the offset behind it. -/
theorem witness_StoresWriteTheirBytes :
    statuses [.stu8 7 0, .stu16 6 0, .stu24 5 0, .stu32 4 0, .sti16 6 0, .sti24 5 0, .sti32 4 0] =
        List.replicate 7 (some .ok) ∧
      statuses [.stu8 8 0, .stu16 7 0, .stu24 6 0, .stu32 5 0, .sti16 7 0, .sti24 6 0, .sti32 5 0] =
        List.replicate 7 (some .contractViolation) := by decide

theorem witness_LoadAfterStore :
    (match exec (.sti24 5 0xFE7960) demo with
      | .next t =>
        (match exec (.ldi24 5) t with
          | .next u => decide (u.rsp = some ⟨.ok, 0xFFFE7960⟩)
          | _ => false)
      | _ => false) = true := by decide

theorem witness_DisjointStoresCommute :
    demo.buf.wf ∧ storedBytes (.stu16 2 0xBEEF) = some (2, 2) ∧ storedBytes (.sti32 4 0) = some (4, 4) ∧
      contractKept (.stu16 2 0xBEEF) = true ∧ contractKept (.sti32 4 0) = true ∧ 2 + 2 ≤ 4 := by decide

theorem witness_FrameOfNonStores :
    storedBytes (.ldu8 8) = none ∧ exec (.ldu8 8) demo = .next { demo with rsp := some ⟨.contractViolation, 0⟩ } :=
  ⟨rfl, rfl⟩

theorem witness_FrameOfStores :
    storedBytes (.stu8 7 0) = some (7, 1) ∧
      exec (.stu8 7 0) demo = .next { demo with buf := writeLE demo.buf 7 1 0, rsp := some ⟨.ok, 0⟩ } ∧
      storedBytes (.stu8 8 0) = some (8, 1) ∧
      exec (.stu8 8 0) demo = .next { demo with rsp := some ⟨.contractViolation, 0⟩ } := ⟨rfl, rfl, rfl, rfl⟩

theorem witness_CompletesWhenContractKept :
    contractKept (.ldu32 4) = true ∧ contractKept (.dlcenc 6) = true ∧ contractKept (.dlcdec 2) = true ∧
      contractKept (.un8enc 0x7FC00000) = true := by decide

theorem witness_MalformedFrameExactlyWhere :
    reqOp 0x530000000109 = 0x53 ∧ 8 < (reqA 0x530000000109).toNat % 256 ∧
      answers 0x530000000109 .malformedFrame 0 = true ∧ answers 0x530000000002 .ok 0 = true := by decide

theorem witness_ContractViolationExactlyWhere :
    answers 0xFFFFFFFFFFFF .contractViolation 0 = true ∧ answers 0x120600000000 .contractViolation 0 = true ∧
      answers 0x520000000007 .contractViolation 0 = true ∧ answers 0x1205FFFFFFFF .ok 0x887766 = true := by decide

theorem witness_ExceptionHasNoEffect :
    step (demo.present 0x520000000007) = .next { demo with rsp := some ⟨.contractViolation, 0⟩ } ∧
      Status.contractViolation ≠ .ok := ⟨rfl, by decide⟩

/-- The operands `0x7C00`, `0x8000`, `0x0001` (p = 0), `0x03FF` (p = 9), `0x0400`, `0x7BFF` of F16DEC. -/
theorem witness_Float16Decode :
    0x7C00 / 2 ^ 10 % 2 ^ 5 = 31 ∧ (0x8000 / 2 ^ 10 % 2 ^ 5 = 0 ∧ 0x8000 % 2 ^ 10 = 0) ∧
      (0x0001 / 2 ^ 10 % 2 ^ 5 = 0 ∧ 2 ^ 0 ≤ 0x0001 % 2 ^ 10 ∧ 0x0001 % 2 ^ 10 < 2 ^ (0 + 1)) ∧
      (0x03FF / 2 ^ 10 % 2 ^ 5 = 0 ∧ 2 ^ 9 ≤ 0x03FF % 2 ^ 10 ∧ 0x03FF % 2 ^ 10 < 2 ^ (9 + 1)) ∧
      0x0400 / 2 ^ 10 % 2 ^ 5 = 1 ∧ 0x7BFF / 2 ^ 10 % 2 ^ 5 = 30 := by decide

theorem witness_Float16DecodeIsExact :
    (0xFBFF : BitVec 16).toNat / 2 ^ 10 % 2 ^ 5 < 31 ∧ (0x0001 : BitVec 16).toNat / 2 ^ 10 % 2 ^ 5 = 0 := by decide

/-- The operands `0x7F800001`, `0x47800000`, `0xFF800000`, `0x32FFFFFF`, `0x33000000`, `0x387FE000`, `0x38800000`,
`0x477FF000` of F16ENC, one for each end of each branch. -/
theorem witness_Float16Encode :
    (expField 0x7F800001 = 255 ∧ manField 0x7F800001 ≠ 0) ∧ expField 0x47800000 = 143 ∧
      (expField 0xFF800000 = 255 ∧ manField 0xFF800000 = 0) ∧ expField 0x32FFFFFF = 101 ∧ expField 0x33000000 = 102 ∧
      expField 0x387FE000 = 112 ∧ expField 0x38800000 = 113 ∧ expField 0x477FF000 = 142 := by decide

/-- The largest pattern below the overflow threshold, and the tie 2^-25 in the subnormal range. -/
theorem witness_Float16EncodeRoundsToNearest :
    (expField 0x477FEFFF ≠ 0xFF ∧ |val 0x477FEFFF| < 65520) ∧ (expField 0x33000000 ≠ 0xFF ∧ |val 0x33000000| < 65520) := by
  have h1 : expField 0x477FEFFF = 142 := by decide
  have h2 : manField 0x477FEFFF = 8384511 := by decide
  have h3 : signBit 0x477FEFFF = 0 := by decide
  have h4 : expField 0x33000000 = 102 := by decide
  have h5 : manField 0x33000000 = 0 := by decide
  have h6 : signBit 0x33000000 = 0 := by decide
  refine ⟨⟨by rw [h1]; decide, ?_⟩, by rw [h4]; decide, ?_⟩
  · norm_num [val, h1, h2, h3, abs_of_pos, zpow_neg]
  · norm_num [val, h4, h5, h6, abs_of_pos, zpow_neg]

theorem witness_BFloatErrorBound :
    expField 0x7F7F7FFF ≠ 0xFF ∧ expField (bf16dec (bf16enc 0x7F7F7FFF)) ≠ 0xFF ∧
      expField (bf24dec (bf24enc 0x7F7F7FFF)) ≠ 0xFF ∧ expField 0x00000001 ≠ 0xFF := by decide

/-- The ends, and the integers next to them: `t = 24` for 1 and `t = 1` for 16777214, over 16777215. -/
theorem witness_UnormDecode :
    (0x100 : Word).toNat % 2 ^ 8 = 0 ∧ (0x1FF : Word).toNat % 2 ^ 8 = 255 ∧
      (1 < 16777215 ∧ 16777215 ≤ 1 * 2 ^ 24 ∧ 1 * 2 ^ 24 < 2 * 16777215) ∧
      (16777214 < 16777215 ∧ 16777215 ≤ 16777214 * 2 ^ 1 ∧ 16777214 * 2 ^ 1 < 2 * 16777215) := by decide

theorem witness_UnormDecodeIsNearest :
    (0 : BitVec 8).toNat = 0 ∧ (255 : BitVec 8).toNat = 255 ∧ (0 < (1 : BitVec 24).toNat) ∧
      (16777214 : BitVec 24).toNat < 16777215 := by decide

/-- NaN, -0.0, 1.0 and +infinity, the largest subnormal, the smallest normal and 1 - 2^-24. -/
theorem witness_UnormEncode :
    ((0x7F800001 : Word).toNat / 2 ^ 23 % 2 ^ 8 = 255 ∧ (0x7F800001 : Word).toNat % 2 ^ 23 ≠ 0) ∧
      2 ^ 31 ≤ (0x80000000 : Word).toNat ∧
      ((0x3F800000 : Word).toNat < 2 ^ 31 ∧ (0x3F800000 : Word).toNat / 2 ^ 23 = 127) ∧
      ((0x7F800000 : Word).toNat / 2 ^ 23 = 255 ∧ (0x7F800000 : Word).toNat % 2 ^ 23 = 0) ∧
      (0x007FFFFF : Word).toNat < 2 ^ 23 ∧ (0x00800000 : Word).toNat / 2 ^ 23 = 1 ∧
      (0x3F7FFFFF : Word).toNat / 2 ^ 23 = 126 := by decide

theorem witness_UnormEncodeIsExact : expField 0x3F7FFFFF ≠ 0xFF ∧ expField 0x80000001 ≠ 0xFF := by decide

/-- -0.0 is low and 1.0 is high, at the two ends of the clamp. -/
theorem witness_UnormClamps :
    (expField 0x80000000 ≠ 0xFF ∧ val 0x80000000 ≤ 0) ∧ (expField 0x3F800000 ≠ 0xFF ∧ 1 ≤ val 0x3F800000) := by
  have h1 : expField 0x80000000 = 0 := by decide
  have h2 : manField 0x80000000 = 0 := by decide
  have h4 : expField 0x3F800000 = 127 := by decide
  have h5 : manField 0x3F800000 = 0 := by decide
  have h6 : signBit 0x3F800000 = 0 := by decide
  refine ⟨⟨by rw [h1]; decide, ?_⟩, by rw [h4]; decide, ?_⟩
  · simp only [val, h1, h2]
    norm_num
  · simp only [val, h4, h5, h6]
    norm_num

/-- 0.0 and 1.0. -/
theorem witness_UnormMonotone :
    expField 0x00000000 ≠ 0xFF ∧ expField 0x3F800000 ≠ 0xFF ∧ val 0x00000000 ≤ val 0x3F800000 := by
  have h1 : expField 0x00000000 = 0 := by decide
  have h2 : manField 0x00000000 = 0 := by decide
  have h4 : expField 0x3F800000 = 127 := by decide
  have h6 : signBit 0x3F800000 = 0 := by decide
  refine ⟨by rw [h1]; decide, by rw [h4]; decide, ?_⟩
  have h5 : manField 0x3F800000 = 0 := by decide
  simp only [val, h1, h2, h4, h5, h6]
  norm_num

theorem witness_DlcEncode :
    (0x00000106 : Word).toNat % 256 ≤ 6 ∧ 6 < (0x00000007 : Word).toNat % 256 ∧ (0x100 : Word).toNat % 256 = 0 := by decide

theorem witness_DlcDecode :
    (2 ≤ (0x102 : Word).toNat % 256 ∧ (0x8 : Word).toNat % 256 ≤ 8) ∧ (0x1 : Word).toNat % 256 < 2 ∧
      8 < (0x9 : Word).toNat % 256 := by decide

theorem witness_DlcInvariant :
    responseOf (.dlcenc 6) demo = some ⟨.ok, 8⟩ ∧ responseOf (.dlcdec 8) demo = some ⟨.ok, 6⟩ ∧
      responseOf (.dlcenc 0) demo = some ⟨.ok, 2⟩ := by decide

theorem witness_EveryRequestIsAnswered :
    (demo.present 0x2400000000AA).inputs = .request 0x2400000000AA :: [] := rfl

theorem demo_inv : demo.Inv := ⟨by decide, fun p h => by cases h⟩

theorem witness_StepKeepsTheInvariant :
    (demo.present (encode (.stu8 7 0))).Inv ∧
      step (demo.present (encode (.stu8 7 0))) =
        .next { demo with buf := writeLE demo.buf 7 1 0, rsp := some ⟨.ok, 0⟩ } :=
  ⟨demo_inv, rfl⟩

theorem witness_ResetLeaves : ({ demo with inputs := [.reset] } : State).inputs = .reset :: [] := rfl

theorem witness_HostConstantsNeverChange :
    step { demo with inputs := [.reset] } = .next { demo with buf := [], epoch := 1 } := rfl

theorem witness_OnlyTheQueriesSeeTheHost : reqOp 0x030000001234 ≠ 0x01 ∧ reqOp 0x030000001234 ≠ 0x02 := by decide

theorem witness_ResponsesReadOnlyTheirBytes :
    demo.host = zeros.host ∧ loadedBytes (.ldu8 3) = some (3, 1) ∧
      demo.bufByte 3 = (machineWith [0, 0, 0, 0x44, 0, 0, 0, 0]).bufByte 3 := by decide

theorem witness_RequesterWritesOneByte :
    ({ demo with inputs := [.bufWrite 7 0x99] } : State).inputs = .bufWrite 7 0x99 :: [] := rfl

theorem witness_RefusedExactlyWhenContended :
    step { demo with inputs := [.contended 0x100000000000] } = .refused .aliasedBuffer := rfl

/-- The run ends in a next system. -/
def goesOn (o : Host.Outcome System Fault Refusal) : Bool :=
  match o with
  | .next _ => true
  | .fault _ => false
  | .refused _ => false

/-- Two instances on BUFs of their own: instance 1 is to store a byte, and both are then idle. -/
def pair : System := [⟨0, demo⟩, ⟨1, { zeros with inputs := [.request 0x200700000099] }⟩]

theorem witness_InstancesAreIndependent :
    pair.ownBuffers ∧ goesOn (pair.run [1, 0, 1]) = true ∧ [1, 0, 1].count 1 = 2 ∧
      pair[1]? = some ⟨1, { zeros with inputs := [.request 0x200700000099] }⟩ ∧
      ¬ System.ownBuffers [⟨3, demo⟩, ⟨3, zeros⟩] := by decide

/-- 20_memory.md R32, 93 U4: two instances on one BUF, and a system whose instance takes a contended request. -/
theorem test_shared_buffer :
    System.stepAt [⟨3, demo⟩, ⟨3, zeros⟩] 0 = .refused .aliasedBuffer ∧
      System.run [0, 1] [⟨0, demo⟩, ⟨1, { zeros with inputs := [.contended 0x100000000000] }⟩] =
        .refused .aliasedBuffer := ⟨rfl, rfl⟩

theorem witness_EveryUncontendedRunGoesOn :
    ∀ x ∈ ({ demo with inputs := [.request 0x520000000007, .bufWrite 0 0x85, .reset] } : State).inputs,
      x.uncontended = true := by decide

theorem witness_AssembledWords :
    Mnemonic.bflsb.form = .bare ∧ Mnemonic.dlcdec.form = .value ∧ Mnemonic.ldi32.form = .offset ∧
      Mnemonic.sti32.form = .offsetValue ∧ 127 < 128 ∧ 1 < 2 := by decide

theorem witness_PutThenGet :
    (4 : BitVec 8).toNat ≤ 4 ∧ (6 : BitVec 8).toNat ≤ 6 ∧ (5 : BitVec 8).toNat ≤ 5 ∧ (7 : BitVec 8).toNat ≤ 7 ∧
      4 < (5 : BitVec 8).toNat := by decide

theorem witness_PktserBuildsTheFrame :
    p1.contentLength ≤ 6 ∧ (5 < Config.maxContent ∧ 5 < p1.contentLength) ∧
      6 < ({ p1 with contentLength := 7 } : Packet).contentLength ∧
      ({ p1 with contentLength := 255 } : Packet).contentLength < 256 := by decide

theorem witness_FrameRoundTrip : p1.wf ∧ ({ p1 with contentLength := 0 } : Packet).wf := by decide

theorem witness_MalformedFrameIsRejected : (1 : BitVec 8).toNat < 2 ∧ 8 < (9 : BitVec 8).toNat := by decide

end Sys2Proof.Tests
end

section
/-! PROOFS, 00_scope.md: what an operation's response depends on (R4, R5). An operation's meaning has one of five shapes,
and each shape shows which parts of the state it reads. -/

namespace Sys2Proof

/-- The decoder's table gives every `op` the operation with that `op`. -/
theorem op_of_mem_opTable {op : BitVec 8} {read : ReadFields} (h : (op, read) ∈ opTable) (off : BitVec 8) (a : Word) :
    (read off a).op = op := by
  have rows : ∀ row ∈ opTable, ∀ off a, (row.2 off a).op = row.1 := by
    simp [opTable, portabilityRows, loadRows, storeRows, decoderRows, encoderRows, headerRows, Instr.op]
  exact rows _ h off a

/-- A word decodes to an operation with the word's own `op`. -/
theorem op_of_decode {w : ReqWord} {i : Instr} (h : decode w = .ok i) : i.op = reqOp w := by
  unfold decode at h
  split at h
  · next read hlookup =>
    obtain ⟨_, _, htable, -⟩ := List.lookup_eq_some_iff.1 hlookup
    cases h
    exact op_of_mem_opTable (by simp [htable]) _ _
  · cases h

end Sys2Proof

namespace Sys2Proof.Machine

/-! ## The shape of a meaning -/

/-- What the meaning of an operation is, as a function of the state: the parts of the state it reads are those named. -/
inductive Meaning (i : Instr) : (State → Result) → Prop
  /-- A query answers a function of the host constants. -/
  | query (ofHost : HostOrder → Word) (h : i = .hostle ∨ i = .bflsb) : Meaning i fun s => respond (ofHost s.host) s
  /-- A result that the operands fix. -/
  | answer (r : Word) : Meaning i (respond r)
  /-- An exception that the operands fix. -/
  | exception (c : Cause) : Meaning i (raise c)
  /-- A load of the bytes `loadedBytes` names. -/
  | load (off n : Nat) (ext : Nat → Word) (h : loadedBytes i = some (off, n)) : Meaning i (load off n ext)
  /-- A store to the bytes `storedBytes` names. -/
  | store (off n v : Nat) (h : storedBytes i = some (off, n)) : Meaning i (store off n v)

/-- DLCENC's content length decides alone between an exception and a result (44_header.md R118). -/
theorem meaning_dlcenc (len : Nat) : Meaning (.dlcenc len) (execDlcenc len) := by
  unfold execDlcenc
  by_cases h : len > Config.maxContent
  · simp only [h, if_true]; exact .exception _
  · simp only [h, if_false]; exact .answer _

/-- DLCDEC's DLC decides alone between an exception and a result (44_header.md R119). -/
theorem meaning_dlcdec (dlc : Nat) : Meaning (.dlcdec dlc) (execDlcdec dlc) := by
  unfold execDlcdec
  by_cases h : dlc < 2 ∨ dlc > 8
  · simp only [h, if_true]; exact .exception _
  · simp only [h, if_false]; exact .answer _

/-- Every operation's meaning has such a shape. -/
theorem exec_meaning (i : Instr) : Meaning i (exec i) := by
  cases i
  case hostle => exact .query (fun host => zext32 (flagBit 1 host.le)) (.inl rfl)
  case bflsb => exact .query (fun host => zext32 (flagBit 1 host.bitfieldLsbFirst)) (.inr rfl)
  case ldu8 | ldu16 | ldu24 | ldu32 | ldi16 | ldi24 | ldi32 => exact .load _ _ _ rfl
  case stu8 | stu16 | stu24 | stu32 | sti16 | sti24 | sti32 => exact .store _ _ _ rfl
  case dlcenc => exact meaning_dlcenc _
  case dlcdec => exact meaning_dlcdec _
  all_goals exact .answer _

/-! ## The host constants -/

/-- A meaning always answers, and with other host constants does the same but for those constants. -/
def HostBlind (f : State → Result) : Prop :=
  ∀ (s : State) (h : HostOrder), ∃ t, f s = .next t ∧ f { s with host := h } = .next { t with host := h }

theorem hostBlind_respond (r : Word) : HostBlind (respond r) := fun _ _ => ⟨_, rfl, rfl⟩

theorem hostBlind_raise (c : Cause) : HostBlind (raise c) := fun _ _ => ⟨_, rfl, rfl⟩

theorem hostBlind_load (off n : Nat) (ext : Nat → Word) : HostBlind (load off n ext) := by
  intro s h
  by_cases hb : off + n ≤ 8
  · have hread : readLE { s with host := h } off n = readLE s off n := readLE_congr fun _ _ _ => rfl
    exact ⟨_, load_inBounds hb ext s, by rw [load_inBounds hb, hread]⟩
  · exact ⟨_, load_outOfBounds (by omega) ext s, load_outOfBounds (by omega) ext _⟩

theorem hostBlind_store (off n v : Nat) : HostBlind (store off n v) := by
  intro s h
  by_cases hb : off + n ≤ 8
  · exact ⟨_, store_inBounds hb v s, store_inBounds hb v _⟩
  · exact ⟨_, store_outOfBounds (by omega) v s, store_outOfBounds (by omega) v _⟩

/-- Only the two queries see the host constants. -/
theorem Meaning.hostBlind {i : Instr} {f : State → Result} (m : Meaning i f) (hle : i ≠ .hostle) (hbf : i ≠ .bflsb) :
    HostBlind f := by
  cases m with
  | query _ h => exact absurd h (by simp [hle, hbf])
  | answer r => exact hostBlind_respond r
  | exception c => exact hostBlind_raise c
  | load off n ext => exact hostBlind_load off n ext
  | store off n v => exact hostBlind_store off n v

/-- No word but the two queries' is performed with regard to the host constants. -/
theorem hostBlind_performWord {w : ReqWord} (hle : reqOp w ≠ 0x01) (hbf : reqOp w ≠ 0x02) :
    HostBlind (performWord w) := by
  unfold performWord
  cases hw : decode w with
  | error _ => exact hostBlind_raise _
  | ok i =>
    have hop := op_of_decode hw
    refine (exec_meaning i).hostBlind ?_ ?_
    · rintro rfl; exact hle hop.symm
    · rintro rfl; exact hbf hop.symm

/-- Settles O49: the step performs the presented word, and all but the two queries' words are host-blind. -/
theorem onlyTheQueriesSeeTheHost : Obligations.OnlyTheQueriesSeeTheHost := by
  intro s h w hle hbf
  simp only [step_present]
  exact hostBlind_performWord hle hbf { s with rsp := none } h

/-! ## The bytes loaded -/

/-- The response of a meaning: the one delivered by the state it goes on to. -/
theorem responseOf_of_exec {i : Instr} {s t : State} (h : exec i s = .next t) : responseOf i s = t.rsp := by
  simp [responseOf, h]

/-- A load delivers the same from two states that agree on its bytes. -/
theorem load_sameResponse {off n : Nat} {s s' : State}
    (h : ∀ a, off ≤ a → a < off + n → s.bufByte a = s'.bufByte a) (ext : Nat → Word) :
    ∃ t t', load off n ext s = .next t ∧ load off n ext s' = .next t' ∧ t.rsp = t'.rsp := by
  by_cases hb : off + n ≤ 8
  · exact ⟨_, _, load_inBounds hb ext s, load_inBounds hb ext s', by rw [readLE_congr h]⟩
  · exact ⟨_, _, load_outOfBounds (by omega) ext s, load_outOfBounds (by omega) ext s', rfl⟩

/-- Whether a store is in bounds does not depend on the state, so its response does not either. -/
theorem store_sameResponse (off n v : Nat) (s s' : State) :
    ∃ t t', store off n v s = .next t ∧ store off n v s' = .next t' ∧ t.rsp = t'.rsp := by
  by_cases hb : off + n ≤ 8
  · exact ⟨_, _, store_inBounds hb v s, store_inBounds hb v s', rfl⟩
  · exact ⟨_, _, store_outOfBounds (by omega) v s, store_outOfBounds (by omega) v s', rfl⟩

/-- A meaning answers alike in two states that agree on the host constants and on the bytes it loads. -/
theorem Meaning.sameResponse {i : Instr} {f : State → Result} (m : Meaning i f) {s s' : State}
    (hhost : s.host = s'.host)
    (hbytes : ∀ off n, loadedBytes i = some (off, n) → ∀ a, off ≤ a → a < off + n → s.bufByte a = s'.bufByte a) :
    ∃ t t', f s = .next t ∧ f s' = .next t' ∧ t.rsp = t'.rsp := by
  cases m with
  | query ofHost => exact ⟨_, _, rfl, rfl, by rw [hhost]⟩
  | answer | exception => exact ⟨_, _, rfl, rfl, rfl⟩
  | load off n ext h => exact load_sameResponse (hbytes off n h) ext
  | store off n v => exact store_sameResponse off n v s s'

/-- Settles O51, from the shape of each meaning. -/
theorem responsesReadOnlyTheirBytes : Obligations.ResponsesReadOnlyTheirBytes := by
  intro i s s' hhost hbytes
  obtain ⟨t, t', ht, ht', hrsp⟩ := (exec_meaning i).sameResponse hhost hbytes
  rw [responseOf_of_exec ht, responseOf_of_exec ht', hrsp]

end Sys2Proof.Machine
end

section
/-! PROOFS, 10_state.md: what a step keeps of the state (R13, R14, R15). An operation that stores nothing only answers;
no act of the outside writes the host constants; and a step takes its input with the response port cleared. -/

namespace Sys2Proof.Machine

/-! ## Operations that store nothing -/

/-- A load, in bounds or not, only answers. -/
theorem load_onlyAnswers (off n : Nat) (ext : Nat → Word) (s : State) :
    ∃ p, load off n ext s = .next { s with rsp := some p } := by
  by_cases hb : off + n ≤ 8
  · exact ⟨_, load_inBounds hb ext s⟩
  · exact ⟨_, load_outOfBounds (by omega) ext s⟩

/-- The meaning of an operation that stores nothing only answers. -/
theorem Meaning.onlyAnswers {i : Instr} {f : State → Result} (m : Meaning i f) (hnone : storedBytes i = none)
    (s : State) : ∃ p, f s = .next { s with rsp := some p } := by
  cases m with
  | query | answer | exception => exact ⟨_, rfl⟩
  | load off n ext => exact load_onlyAnswers off n ext s
  | store _ _ _ h => simp [hnone] at h

/-- Settles O15: the next state is the state before but for its response. -/
theorem frameOfNonStores : Obligations.FrameOfNonStores := by
  intro i s t hnone hexec
  obtain ⟨p, hp⟩ := (exec_meaning i).onlyAnswers hnone s
  obtain rfl : { s with rsp := some p } = t := Host.Outcome.next.inj (hp.symm.trans hexec)
  exact ⟨rfl, rfl, rfl, rfl, s.bufByte_setRsp _⟩

/-! ## The host constants -/

/-- No meaning has an effect on the host constants. -/
theorem Effect.host_eq {s t : State} {r : Result} (e : Effect s r) (h : r = .next t) : t.host = s.host := by
  cases e <;> cases h <;> rfl

/-- No act of the outside changes the host constants (R14). -/
theorem serve_host {x : Input} {s t : State} (h : serve x s = .next t) : t.host = s.host := by
  cases x with
  | request w => exact (performWord_effect w s).host_eq h
  | bufWrite | reset => cases h; rfl
  | contended => cases h

/-- Settles O48: an idle step keeps the host constants, and so does every act served. -/
theorem hostConstantsNeverChange : Obligations.HostConstantsNeverChange := by
  intro s t h
  cases hin : s.inputs with
  | nil =>
    rw [step_idle hin] at h
    cases h
    exact s.taken_host []
  | cons x rest =>
    rw [step_serve hin] at h
    exact (serve_host h).trans (s.taken_host rest)

/-! ## The response port -/

/-- Taking an input clears the response port, whatever stood there (R13). -/
@[simp] theorem State.taken_setRsp (s : State) (p : Option Response) (rest : List Input) :
    State.taken { s with rsp := p } rest = s.taken rest := rfl

/-- The step does not see the response standing at the port: idle or not, it goes on from the state taken. -/
theorem step_setRsp (s : State) (p : Option Response) : step { s with rsp := p } = step s := by
  simp only [step, idle, State.taken_setRsp]

/-- Settles O50: either response gives the step of the state itself. -/
theorem noStatusIsLatched : Obligations.NoStatusIsLatched := by
  intro s p q
  rw [step_setRsp s p, step_setRsp s q]

end Sys2Proof.Machine
end

section
/-! PROOFS, 20_memory.md: what a step does to BUF and to the ports (R20, R23, R25, R31), and what several instances do to
each other's (R32). An act of the outside is a request, whose meaning has an `Effect`, a write of one byte, a reset, or a
contended request, which alone is refused. -/

namespace Sys2Proof.Machine

/-! ## The invariant -/

/-- A BUF in which nothing is written is in canonical form. -/
theorem Memory.wf_nil : Memory.wf [] := ⟨.nil, by simp⟩

/-- BUF in canonical form and a well-formed response at the port. -/
theorem State.inv_of_answered {s : State} {p : Response} (hbuf : s.buf.wf) (hrsp : s.rsp = some p) (hp : p.wf) :
    s.Inv :=
  ⟨hbuf, fun _ hq => Option.some.inj (hrsp.symm.trans hq) ▸ hp⟩

/-- BUF in canonical form and no response at the port. -/
theorem State.inv_of_silent {s : State} (hbuf : s.buf.wf) (hrsp : s.rsp = none) : s.Inv :=
  ⟨hbuf, by simp [hrsp]⟩

/-- A meaning leaves the invariant wherever it finds BUF in canonical form, whatever response stood at the port. -/
theorem Effect.inv {s t : State} {r : Result} (e : Effect s r) (hbuf : s.buf.wf) (h : r = .next t) : t.Inv := by
  cases e with
  | answered p hp => cases h; exact State.inv_of_answered hbuf rfl hp
  | stored off n v hb => cases h; exact State.inv_of_answered (writeLE_wf hbuf hb v) rfl fun _ => rfl

/-- Every act of the outside, served with the response port cleared, leaves the invariant. -/
theorem serve_inv {x : Input} {s t : State} (hbuf : s.buf.wf) (hrsp : s.rsp = none) (h : serve x s = .next t) :
    t.Inv := by
  cases x with
  | request w => exact (performWord_effect w s).inv hbuf h
  | bufWrite off b => cases h; exact State.inv_of_silent (Memory.write_wf hbuf off.isLt b) hrsp
  | reset => cases h; exact State.inv_of_silent Memory.wf_nil rfl
  | contended => cases h

/-- Settles O45: a step goes on from BUF as it stands and a cleared response port, idle or serving an act. -/
theorem stepKeepsTheInvariant : Obligations.StepKeepsTheInvariant := by
  intro s t ⟨hbuf, _⟩ h
  cases hin : s.inputs with
  | nil =>
    rw [step_idle hin] at h
    cases h
    exact State.inv_of_silent hbuf (s.taken_rsp [])
  | cons x rest =>
    rw [step_serve hin] at h
    exact serve_inv (s := s.taken rest) hbuf (s.taken_rsp rest) h

/-! ## Stores -/

/-- The meaning of an operation that stores is a store to the bytes `storedBytes` names. -/
theorem exec_eq_store {i : Instr} {off n : Nat} (h : storedBytes i = some (off, n)) : ∃ v, exec i = store off n v := by
  cases i
  case stu8 | stu16 | stu24 | stu32 | sti16 | sti24 | sti32 => cases h; exact ⟨_, rfl⟩
  all_goals cases h

/-- Settles O16: a store in bounds writes its own bytes alone, a store out of bounds only answers. -/
theorem frameOfStores : Obligations.FrameOfStores := by
  intro i s t off n hstored hexec
  obtain ⟨v, hv⟩ := exec_eq_store hstored
  rw [hv] at hexec
  by_cases hb : off + n ≤ 8
  · rw [store_inBounds hb] at hexec
    cases hexec
    refine ⟨rfl, rfl, rfl, fun a ha => ?_, fun _ => by omega⟩
    rw [bufByte_writeLE, if_neg (by omega)]
  · rw [store_outOfBounds (by omega)] at hexec
    cases hexec
    exact ⟨rfl, rfl, rfl, fun a _ => s.bufByte_setRsp _ a, fun _ a => s.bufByte_setRsp _ a⟩

/-! ## Accesses between requests -/

/-- A byte of BUF after the outside has written one. -/
theorem State.bufByte_outsideWrite (s : State) (off : Nat) (b : Byte) (a : Nat) :
    (s.outsideWrite off b).bufByte a = if a = off then b else s.bufByte a := by
  simp only [State.bufByte, State.outsideWrite_buf, State.outsideWrite_epoch, Memory.read?_write]
  split <;> simp

/-- Settles O52: the step is the outside's write, on the state with its input taken. -/
theorem requesterWritesOneByte : Obligations.RequesterWritesOneByte := by
  intro s off b rest hin
  refine ⟨(s.taken rest).outsideWrite off.val b, step_serve hin, ?_, fun a ha => ?_, rfl, rfl, rfl⟩
  · rw [State.bufByte_outsideWrite, if_pos rfl]
  · rw [State.bufByte_outsideWrite, if_neg ha, State.bufByte_taken]

/-! ## Refusal -/

/-- A meaning always answers with a next state. -/
theorem Effect.exists_next {s : State} {r : Result} (e : Effect s r) : ∃ t, r = .next t := by
  cases e <;> exact ⟨_, rfl⟩

/-- Of the acts of the outside only a contended request is refused, under the name aliasedBuffer. -/
theorem serve_eq_refused_iff (x : Input) (s : State) (r : Refusal) :
    serve x s = .refused r ↔ r = .aliasedBuffer ∧ ∃ w, x = .contended w := by
  cases x with
  | request w =>
    obtain ⟨t, ht⟩ := (performWord_effect w s).exists_next
    simp [serve, ht]
  | bufWrite | reset => simp [serve]
  | contended w => simp [serve, eq_comm]

/-- Settles O53: an idle step is not refused, a served act only when contended, and there is no fault to answer. -/
theorem refusedExactlyWhenContended : Obligations.RefusedExactlyWhenContended := by
  intro s
  refine ⟨fun r => ?_, fun f => nomatch f⟩
  cases hin : s.inputs with
  | nil => simp [step_idle hin]
  | cons x rest => simp [step_serve hin, serve_eq_refused_iff]

/-! ## Several instances -/

/-- A longer run of a system that goes on has a first step and a run behind it. -/
theorem System.next_of_run_cons {sys sys' : System} {j : Nat} {schedule : List Nat}
    (h : sys.run (j :: schedule) = .next sys') : ∃ mid, sys.stepAt j = .next mid ∧ mid.run schedule = .next sys' := by
  rw [System.run] at h
  split at h
  · exact ⟨_, ‹_›, h⟩
  · cases h
  · cases h

/-- The first step of a longer run of a system. -/
theorem System.run_cons_of_next {sys mid : System} {j : Nat} (h : sys.stepAt j = .next mid) (schedule : List Nat) :
    sys.run (j :: schedule) = mid.run schedule := by
  rw [System.run, h]

/-- The machine that takes the step is on the same BUF in its own next state. -/
theorem System.stepAt_getElem?_self {sys sys' : System} {k : Nat} {a : Attached} (h : sys.stepAt k = .next sys')
    (ha : sys[k]? = some a) : ∃ t, step a.machine = .next t ∧ sys'[k]? = some { a with machine := t } := by
  obtain ⟨-, ⟨hnone, -⟩ | ⟨b, t, hb, ht, rfl⟩⟩ := System.stepAt_cases sys sys' k h
  · simp [hnone] at ha
  · obtain rfl : b = a := Option.some.inj (hb.symm.trans ha)
    have hk := (List.getElem?_eq_some_iff.1 ha).1
    exact ⟨t, ht, List.getElem?_set_self hk⟩

/-- Every other machine is as it was. -/
theorem System.stepAt_getElem?_of_ne {sys sys' : System} {j k : Nat} (h : sys.stepAt j = .next sys') (hjk : j ≠ k) :
    sys'[k]? = sys[k]? := by
  obtain ⟨-, ⟨-, rfl⟩ | ⟨_, _, -, -, rfl⟩⟩ := System.stepAt_cases sys sys' j h
  · rfl
  · exact List.getElem?_set_ne hjk

/-- No step adds a machine to the system. -/
theorem System.stepAt_getElem?_none {sys sys' : System} {j k : Nat} (h : sys.stepAt j = .next sys')
    (hk : sys[k]? = none) : sys'[k]? = none := by
  have hlen : sys'.length = sys.length := by simpa using congrArg List.length (System.stepAt_buffers sys sys' j h)
  simpa [hlen] using hk

/-- A run leaves each machine where it is alone after as many steps as the schedule names it. -/
theorem System.run_getElem? {schedule : List Nat} {sys sys' : System} {k : Nat} {a : Attached}
    (h : sys.run schedule = .next sys') (ha : sys[k]? = some a) :
    ∃ t : State, Sys2Proof.core.run (schedule.count k) a.machine = .next t ∧
      sys'[k]? = some { a with machine := t } := by
  induction schedule generalizing sys a with
  | nil => cases h; exact ⟨a.machine, rfl, ha⟩
  | cons j schedule ih =>
    obtain ⟨mid, hstep, hrun⟩ := System.next_of_run_cons h
    by_cases hjk : j = k
    · subst hjk
      obtain ⟨u, hu, hmid⟩ := System.stepAt_getElem?_self hstep ha
      obtain ⟨t, ht, hsys'⟩ := ih hrun hmid
      rw [List.count_cons_self]
      exact ⟨t, (run_succ_of_next _ _ _ _ hu).trans ht, hsys'⟩
    · rw [List.count_cons_of_ne hjk]
      exact ih hrun ((System.stepAt_getElem?_of_ne hstep hjk).trans ha)

/-- Each machine, alone, goes on for as many steps as the schedule names it. -/
def System.EachGoesOn (schedule : List Nat) (sys : System) : Prop :=
  ∀ (k : Nat) (a : Attached), sys[k]? = some a →
    ∃ t : State, Sys2Proof.core.run (schedule.count k) a.machine = .next t

/-- The machine that the schedule names first has a step of its own, alone, and goes on behind it. -/
theorem System.EachGoesOn.step_head {j : Nat} {schedule : List Nat} {sys : System} {a : Attached}
    (h : System.EachGoesOn (j :: schedule) sys) (ha : sys[j]? = some a) :
    ∃ t u : State, step a.machine = .next t ∧ Sys2Proof.core.run (schedule.count j) t = .next u := by
  obtain ⟨u, hu⟩ := h j a ha
  rw [List.count_cons_self] at hu
  obtain ⟨t, ht, hrest⟩ := next_of_run_succ _ _ _ _ hu
  exact ⟨t, u, ht, hrest⟩

/-- On BUFs of their own the instances take the first step of such a schedule. -/
theorem System.EachGoesOn.exists_stepAt {j : Nat} {schedule : List Nat} {sys : System}
    (h : System.EachGoesOn (j :: schedule) sys) (hown : sys.ownBuffers) : ∃ mid, sys.stepAt j = .next mid := by
  cases ha : sys[j]? with
  | none => exact ⟨sys, by simp [System.stepAt, hown, ha]⟩
  | some a =>
    obtain ⟨t, _, ht, -⟩ := h.step_head ha
    exact ⟨_, System.stepAt_next sys j a t hown ha ht⟩

/-- Behind that step they go on for the rest of the schedule. -/
theorem System.EachGoesOn.of_stepAt {j : Nat} {schedule : List Nat} {sys mid : System}
    (h : System.EachGoesOn (j :: schedule) sys) (hstep : sys.stepAt j = .next mid) :
    System.EachGoesOn schedule mid := by
  intro k b hb
  by_cases hjk : j = k
  · subst hjk
    cases ha : sys[j]? with
    | none => simp [System.stepAt_getElem?_none hstep ha] at hb
    | some a =>
      obtain ⟨t, u, ht, hu⟩ := h.step_head ha
      obtain ⟨t', ht', hmid⟩ := System.stepAt_getElem?_self hstep ha
      obtain rfl : t = t' := Host.Outcome.next.inj (ht.symm.trans ht')
      obtain rfl : { a with machine := t } = b := Option.some.inj (hmid.symm.trans hb)
      exact ⟨u, hu⟩
  · obtain ⟨t, ht⟩ := h k b ((System.stepAt_getElem?_of_ne hstep hjk).symm.trans hb)
    exact ⟨t, by rwa [List.count_cons_of_ne hjk] at ht⟩

/-- Instances on BUFs of their own that each go on alone go on together. -/
theorem System.EachGoesOn.exists_run {schedule : List Nat} {sys : System} (h : System.EachGoesOn schedule sys)
    (hown : sys.ownBuffers) : ∃ sys', sys.run schedule = .next sys' := by
  induction schedule generalizing sys with
  | nil => exact ⟨sys, rfl⟩
  | cons j schedule ih =>
    obtain ⟨mid, hmid⟩ := h.exists_stepAt hown
    have hown' : mid.ownBuffers := by rwa [System.ownBuffers, System.stepAt_buffers sys mid j hmid]
    rw [System.run_cons_of_next hmid]
    exact ih (h.of_stepAt hmid) hown'

/-- A system with a shared BUF is refused at the first step of any schedule. -/
theorem System.run_shared {schedule : List Nat} {sys : System} (h : ¬ sys.ownBuffers) (hne : schedule ≠ []) :
    sys.run schedule = .refused .aliasedBuffer := by
  cases schedule with
  | nil => exact absurd rfl hne
  | cons j schedule => rw [System.run, System.stepAt_shared sys j h]

/-- Settles O55, by induction on the schedule. -/
theorem instancesAreIndependent : Obligations.InstancesAreIndependent := fun _ _ =>
  ⟨fun _ _ _ hrun ha => System.run_getElem? hrun ha, fun hown hgo => System.EachGoesOn.exists_run hgo hown,
    fun hshared hne => System.run_shared hshared hne⟩

end Sys2Proof.Machine
end

section
/-! PROOFS, 30_encoding.md: the decoder and the encoder on the rows of R37, the answer to a request word, the words of
the assembler (R40) and the PUT and GET sequences (R42). -/

namespace Sys2Proof

/-! ## Decoding what was encoded (R35, R37) -/

/-- A word whose `op` has a row decodes to what the row reads from its other two fields. -/
theorem decode_reqWord_of_row {op : BitVec 8} {read : ReadFields} (hrow : opTable.lookup op = some read)
    (off : BitVec 8) (a : Word) : decode (reqWord op off a) = .ok (read off a) := by
  rw [decode_reqWord, hrow]

/-- An operation is decoded from its own word when its row reads it from the encoder's two fields. -/
theorem decode_encode_of_row {i : Instr} {read : ReadFields} (hrow : opTable.lookup i.op = some read)
    (hread : read i.offField i.aField = i) : decode (encode i) = .ok i := by
  rw [encode, decode_reqWord_of_row hrow, hread]

/-- A zero-extended operand is read back from the low bits. -/
theorem extractLsb'_setWidth_word {n : Nat} (hn : n ≤ 32) (v : BitVec n) : (v.setWidth 32).extractLsb' 0 n = v := by
  rw [BitVec.extractLsb'_setWidth_of_le (by omega), BitVec.extractLsb'_eq_self]

/-- A number that fits a byte is read back from its field. -/
theorem toNat_ofNat_of_fitsByte {n : Nat} (h : fitsByte n = true) : (BitVec.ofNat 8 n).toNat = n := by
  rw [BitVec.toNat_ofNat, Nat.mod_eq_of_lt (of_decide_eq_true h)]

/-- The priority stands at bit 16 of HDRENC's operand. -/
theorem headerOperand_getLsbD_priority (p : Priority) (da : DeviceAddress) :
    (headerOperand p da).getLsbD 16 = p.bit := by
  simp [headerOperand]

/-- The Device Address composite stands in the low ten bits of HDRENC's operand. -/
theorem headerOperand_extractLsb'_address (p : Priority) (da : DeviceAddress) :
    (headerOperand p da).extractLsb' 0 10 = packAddress Config.hdrFlagOrder da := by
  apply BitVec.eq_of_getLsbD_eq
  intro i hi
  have h16 : i < 16 := by omega
  have h32 : i < 32 := by omega
  simp [headerOperand, hi, h16, h32]

/-- Settles O1: each operation's row reads its operands back from the fields in which the encoder put them. The cases are
the shapes of R38: none or the whole of `a`, an offset, an offset and a value, a byte, a header, a part of `a`. -/
theorem decodeOfEncode : Obligations.DecodeOfEncode := by
  intro i hwf
  cases i
  case hostle | bflsb | bswap32 | f32dec | f32enc | f16enc | bf16enc | bf24enc | un8enc | un16enc | un24enc =>
    exact decode_encode_of_row rfl rfl
  case ldu8 | ldu16 | ldu24 | ldu32 | ldi16 | ldi24 | ldi32 =>
    refine decode_encode_of_row rfl ?_
    simp only [Instr.offField, toNat_ofNat_of_fitsByte hwf]
  case stu8 | stu16 | stu24 | stu32 | sti16 | sti24 | sti32 =>
    refine decode_encode_of_row rfl ?_
    simp [Instr.offField, Instr.aField, toNat_ofNat_of_fitsByte hwf, extractLsb'_setWidth_word]
  case dlcenc | dlcdec =>
    refine decode_encode_of_row rfl ?_
    simp [Instr.aField, toNat_ofNat_of_fitsByte hwf, extractLsb'_setWidth_word]
  case hdrenc p da =>
    refine decode_encode_of_row rfl ?_
    simp only [Instr.aField, headerOperand_getLsbD_priority, headerOperand_extractLsb'_address, Priority.ofBit_bit,
      unpackAddress_packAddress]
  case bswap16 | clz16 | f16dec | bf16dec | bf24dec | un8dec | un16dec | un24dec | hdrdec =>
    refine decode_encode_of_row rfl ?_
    simp [Instr.aField, extractLsb'_setWidth_word]

/-- Settles O2, by decoding the nine words. -/
theorem decodesTheSpecsWords : Obligations.DecodesTheSpecsWords := by
  unfold Obligations.DecodesTheSpecsWords
  decide

/-! ## The rows of the table (R37) -/

/-- A row that is looked up stands in the table. -/
theorem mem_opTable_of_lookup {op : BitVec 8} {read : ReadFields} (h : opTable.lookup op = some read) :
    (op, read) ∈ opTable := by
  obtain ⟨_, _, htable, -⟩ := List.lookup_eq_some_iff.1 h
  simp [htable]

/-- What a row reads fits its fields. -/
theorem wf_of_mem_opTable {op : BitVec 8} {read : ReadFields} (h : (op, read) ∈ opTable) (off : BitVec 8) (a : Word) :
    (read off a).wf = true := by
  have hbyte (b : BitVec 8) : b.toNat < 256 := b.isLt
  have rows : ∀ row ∈ opTable, ∀ off a, (row.2 off a).wf = true := by
    simp [opTable, portabilityRows, loadRows, storeRows, decoderRows, encoderRows, headerRows, Instr.wf, hbyte,
      -BitVec.extractLsb'_toNat]
  exact rows _ h off a

/-- A mask of ones hides no bit. -/
theorem and_of_eq_allOnes {n : Nat} {mask : BitVec n} (h : mask = .allOnes n) (v : BitVec n) : v &&& mask = v := by
  rw [h, BitVec.and_allOnes]

/-- A row reads the same when the bits it ignores (R38) are cleared: each field it reads lies under its mask. -/
theorem read_masked {op : BitVec 8} {read : ReadFields} (h : (op, read) ∈ opTable) (off : BitVec 8) (a : Word) :
    read off a = read (if Machine.readsOff op.toNat then off else 0) (a &&& Machine.readMask op.toNat) := by
  have rows : ∀ row ∈ opTable, ∀ off a,
      row.2 off a = row.2 (if Machine.readsOff row.1.toNat then off else 0) (a &&& Machine.readMask row.1.toNat) := by
    simp [opTable, portabilityRows, loadRows, storeRows, decoderRows, encoderRows, headerRows, Machine.readsOff,
      Machine.readMask, BitVec.extractLsb'_and, -BitVec.extractLsb'_toNat, and_of_eq_allOnes]
  exact rows _ h off a

/-- Words that agree on `op` and on the bits it reads decode alike. -/
theorem decode_congr {w w' : ReqWord} (hop : reqOp w = reqOp w')
    (hoff : Machine.readsOff (reqOp w).toNat = true → reqOff w = reqOff w')
    (ha : reqA w &&& Machine.readMask (reqOp w).toNat = reqA w' &&& Machine.readMask (reqOp w).toNat) :
    decode w = decode w' := by
  unfold decode
  rw [← hop]
  cases hrow : opTable.lookup (reqOp w) with
  | none => rfl
  | some read =>
    have hread := read_masked (mem_opTable_of_lookup hrow)
    have hoff' : (if Machine.readsOff (reqOp w).toNat then reqOff w else 0) =
        if Machine.readsOff (reqOp w).toNat then reqOff w' else 0 := ite_congr rfl hoff fun _ => rfl
    have hfields : read (reqOff w) (reqA w) = read (reqOff w') (reqA w') := by
      rw [hread, hoff', ha, ← hread]
    simp only [hfields]

/-! ## The reserved values of `op` (R39) -/

/-- The values that R39 lists are those without a row in R37. -/
theorem isReservedOp_eq_lookup_isNone :
    ∀ op : BitVec 8, Machine.isReservedOp op.toNat = (opTable.lookup op).isNone := by
  decide

/-- R39's count: 47 of the values up to 0x53, where the table ends, and each of the 172 above. -/
theorem countP_isReservedOp : (List.range 256).countP Machine.isReservedOp = 219 := by
  have hlow : (List.range 0x54).countP Machine.isReservedOp = 47 := by decide
  have hhigh : ((List.range 172).map (0x54 + ·)).countP Machine.isReservedOp = 172 := by
    have hall : ∀ n ∈ (List.range 172).map (0x54 + ·), Machine.isReservedOp n = true := by
      simp [Machine.isReservedOp]
      omega
    simpa using List.countP_eq_length.2 hall
  rw [show 256 = 0x54 + 172 from rfl, List.range_add, List.countP_append, hlow, hhigh]

/-- A word with a reserved `op` is rejected by name. -/
theorem decode_of_isReservedOp {w : ReqWord} (h : Machine.isReservedOp (reqOp w).toNat = true) :
    decode w = .error (.reservedOp (reqOp w)) := by
  rw [isReservedOp_eq_lookup_isNone, Option.isNone_iff_eq_none] at h
  simp only [decode, h]

/-- A word with any other `op` is read by the row of that `op`. -/
theorem decode_of_not_isReservedOp {w : ReqWord} (h : Machine.isReservedOp (reqOp w).toNat = false) :
    ∃ read, (reqOp w, read) ∈ opTable ∧ decode w = .ok (read (reqOff w) (reqA w)) := by
  rw [isReservedOp_eq_lookup_isNone, Option.isNone_eq_false_iff, Option.isSome_iff_exists] at h
  obtain ⟨read, hrow⟩ := h
  exact ⟨read, mem_opTable_of_lookup hrow, by simp only [decode, hrow]⟩

/-! ## Bit strings side by side, as numbers -/

theorem toNat_append_eq_add {m n : Nat} (x : BitVec m) (y : BitVec n) :
    (x ++ y).toNat = x.toNat * 2 ^ n + y.toNat := by
  rw [BitVec.toNat_append, ← Nat.shiftLeft_add_eq_or_of_lt y.isLt, Nat.shiftLeft_eq]

theorem flagBit_toNat {w : Nat} (hw : 0 < w) (b : Bool) : (flagBit w b).toNat = b.toNat := by
  have hb : b.toNat < 2 ^ w := b.toNat_lt.trans_le (Nat.le_self_pow hw.ne' 2)
  rw [flagBit, BitVec.toNat_ofNat, Nat.mod_eq_of_lt hb]

/-- The composite is its fields side by side (10_state.md R16, 90_conflicts.md C1). -/
theorem packAddress_eq_append (da : DeviceAddress) :
    packAddress .peripheralHigh da =
      da.uniqueId ++ flagBit 1 da.peripheral ++ flagBit 1 da.motor ++ flagBit 1 da.power := by
  apply BitVec.eq_of_getLsbD_eq
  intro i hi
  simp only [packAddress_getLsbD _ _ _ hi, BitVec.getLsbD_append]
  interval_cases i <;> simp [peripheralPos, powerPos]

theorem packAddress_toNat (da : DeviceAddress) :
    (packAddress .peripheralHigh da).toNat =
      da.uniqueId.toNat * 2 ^ 3 + da.peripheral.toNat * 2 ^ 2 + da.motor.toNat * 2 + da.power.toNat := by
  simp only [packAddress_eq_append, toNat_append_eq_add, flagBit_toNat one_pos]
  omega

/-- HDRENC's operand is the priority above the composite. -/
theorem headerOperand_eq_append (p : Priority) (da : DeviceAddress) :
    headerOperand p da = flagBit 16 p.bit ++ (packAddress Config.hdrFlagOrder da).setWidth 16 := by
  apply BitVec.eq_of_getLsbD_eq
  intro i hi
  simp only [headerOperand, BitVec.getLsbD_or, BitVec.getLsbD_append]
  by_cases h : i < 16
  · simp [h, hi]
  · simp [h, hi, BitVec.getLsbD_of_ge _ i (show 10 ≤ i by omega)]

theorem headerOperand_toNat (p : Priority) (da : DeviceAddress) :
    (headerOperand p da).toNat = p.bit.toNat * 2 ^ 16 + (packAddress Config.hdrFlagOrder da).toNat := by
  rw [headerOperand_eq_append, toNat_append_eq_add, flagBit_toNat (by omega), BitVec.toNat_setWidth_of_le (by omega)]

end Sys2Proof

namespace Sys2Proof.Machine

/-! ## The response word (R36) -/

/-- A response word is its status code above its result. -/
theorem Response.word_toNat (p : Response) : p.word.toNat = p.status.code.toNat * 2 ^ 32 + p.r.toNat :=
  toNat_append_eq_add _ _

/-- Settles O43: the quotient is the status code, a number for each status. -/
theorem responseWordFields : Obligations.ResponseWordFields := by
  intro p
  have hword := p.word_toNat
  have hr := p.r.isLt
  have hlow : p.word.toNat % 2 ^ 32 = p.r.toNat := by omega
  have hhigh : p.word.toNat / 2 ^ 32 = p.status.code.toNat := by omega
  rw [hlow, hhigh]
  cases p.status <;> exact ⟨rfl, rfl, by decide⟩

/-! ## Performing a word (R35, R38, R39) -/

/-- A word that decodes to an operation performs it. -/
theorem performWord_of_decode {w : ReqWord} {i : Instr} (h : decode w = .ok i) : performWord w = exec i := by
  funext s
  simp only [performWord, h]

/-- A word that decodes to no operation raises ContractViolation. -/
theorem performWord_of_decode_error {w : ReqWord} {e : DecodeError} (h : decode w = .error e) :
    performWord w = raise .contractViolation := by
  funext s
  simp only [performWord, h]

/-- What a word does depends on what it decodes to alone. -/
theorem performWord_congr {w w' : ReqWord} (h : decode w = decode w') : performWord w = performWord w' := by
  unfold performWord
  rw [h]

/-- A word whose `op` has a row performs what the row reads. -/
theorem performWord_of_row {op : BitVec 8} {read : ReadFields} (hrow : opTable.lookup op = some read)
    {off : BitVec 8} {a : Word} {f : State → Result} (hexec : exec (read off a) = f) :
    performWord (reqWord op off a) = f := by
  rw [performWord_of_decode (decode_reqWord_of_row hrow off a), hexec]

/-- Settles O5: the step performs the word on the state taken. -/
theorem stepRunsTheDecodedInstruction : Obligations.StepRunsTheDecodedInstruction := by
  intro s w rest i hin hdec
  calc step s = performWord w (s.taken rest) := step_serve hin
    _ = exec i (s.taken rest) := by rw [performWord_of_decode hdec]

/-- Settles O4: both words decode alike, and a step on a presented word performs what it decodes to. -/
theorem ignoredBitsNeverMatter : Obligations.IgnoredBitsNeverMatter := by
  intro w w' s hop hoff ha
  have hdec := decode_congr hop hoff ha
  exact ⟨hdec, by rw [step_present, step_present, performWord_congr hdec]⟩

/-- Settles O3: the decoder rejects a reserved `op` and reads every other one by its row. -/
theorem reservedOpsRaise : Obligations.ReservedOpsRaise := by
  refine ⟨countP_isReservedOp, fun w s => ⟨fun hres => ?_, fun hop => ?_⟩⟩
  · have hdec := decode_of_isReservedOp hres
    refine ⟨hdec, ?_⟩
    rw [step_present, performWord_of_decode_error hdec, raise_eq, Cause.status]
  · obtain ⟨read, hmem, hdec⟩ := decode_of_not_isReservedOp hop
    exact ⟨_, hdec, wf_of_mem_opTable hmem _ _, op_of_mem_opTable hmem _ _⟩

/-- A meaning answers one well-formed response and leaves all of the state but that and BUF. -/
theorem Effect.exists_answer {s : State} {r : Result} (e : Effect s r) :
    ∃ (t : State) (p : Response), r = .next t ∧ t.rsp = some p ∧ p.wf ∧
      t.inputs = s.inputs ∧ t.host = s.host ∧ t.epoch = s.epoch := by
  cases e with
  | answered p hp => exact ⟨_, p, rfl, rfl, hp, rfl, rfl, rfl⟩
  | stored => exact ⟨_, ⟨.ok, 0⟩, rfl, rfl, fun _ => rfl, rfl, rfl, rfl⟩

/-- Settles O44: the step performs the word, whatever it is, on the state taken. -/
theorem everyRequestIsAnswered : Obligations.EveryRequestIsAnswered := by
  intro s w rest hin
  obtain ⟨t, p, hperf, hanswer⟩ := (performWord_effect w (s.taken rest)).exists_answer
  exact ⟨t, p, (step_serve hin).trans hperf, hanswer⟩

/-! ## The words of the assembler (R40) -/

/-- Numbers taken from the fields of a word give that word. -/
theorem requestOfNumbers_toNat (op off : BitVec 8) (a : Word) :
    requestOfNumbers op (some off.toNat) (some a.toNat) = some (reqWord op off a) := by
  simp [requestOfNumbers, off.isLt, a.isLt]

theorem assemble_bare {m : Mnemonic} (hform : m.form = .bare) (results : List Word) :
    assemble results ⟨m, []⟩ = some (reqWord m.op 0 0) := by
  simp only [assemble, hform]
  exact requestOfNumbers_toNat _ 0 0

theorem assemble_value {m : Mnemonic} (hform : m.form = .value) (results : List Word) (v : Word) :
    assemble results ⟨m, [.num v.toNat]⟩ = some (reqWord m.op 0 v) := by
  simp only [assemble, hform]
  exact requestOfNumbers_toNat _ 0 v

theorem assemble_offset {m : Mnemonic} (hform : m.form = .offset) (results : List Word) (off : BitVec 8) :
    assemble results ⟨m, [.num off.toNat]⟩ = some (reqWord m.op off 0) := by
  simp only [assemble, hform]
  exact requestOfNumbers_toNat _ off 0

theorem assemble_offsetValue {m : Mnemonic} (hform : m.form = .offsetValue) (results : List Word) (off : BitVec 8)
    (v : Word) : assemble results ⟨m, [.num off.toNat, .num v.toNat]⟩ = some (reqWord m.op off v) := by
  simp only [assemble, hform]
  exact requestOfNumbers_toNat _ off v

/-- A number below 2 read as a flag and back. -/
theorem toNat_beq_one {n : Nat} (h : n < 2) : (n == 1).toNat = n := by
  interval_cases n <;> rfl

/-- The operand of the five-operand form, each number fitting its field. -/
theorem headerNumber_eq (p : Priority) {uid per mot pow : Nat} (huid : uid < 128) (hper : per < 2) (hmot : mot < 2)
    (hpow : pow < 2) :
    headerNumber p (some uid) (some per) (some mot) (some pow) =
      some (p.bit.toNat * 2 ^ 16 + uid * 2 ^ 3 + per * 2 ^ 2 + mot * 2 + pow) := by
  simp [headerNumber, huid, hper, hmot, hpow, headerOperand_toNat, Config.hdrFlagOrder, packAddress_toNat,
    toNat_beq_one, Nat.mod_eq_of_lt]
  omega

/-- Settles O56, a line of each form; the five operands of HDRENC make the number that its one operand would be. -/
theorem assembledWords : Obligations.AssembledWords := by
  refine ⟨fun m h => assemble_bare h [], fun m v h => assemble_value h [] v, fun m off h => assemble_offset h [] off,
    fun m off v h => assemble_offsetValue h [] off v, fun v => requestOfNumbers_toNat 0x50 0 v, ?_⟩
  intro p uid per mot pow huid hper hmot hpow
  have hp := p.bit.toNat_lt
  set operand := p.bit.toNat * 2 ^ 16 + uid * 2 ^ 3 + per * 2 ^ 2 + mot * 2 + pow with hoperand
  have hfits : (BitVec.ofNat 32 operand).toNat = operand := by rw [BitVec.toNat_ofNat, Nat.mod_eq_of_lt (by omega)]
  calc assemble [] ⟨.hdrenc, [.prio p, .num uid, .num per, .num mot, .num pow]⟩
      = requestOfNumbers 0x50 (some 0) (headerNumber p (some uid) (some per) (some mot) (some pow)) := rfl
    _ = requestOfNumbers 0x50 (some 0) (some (BitVec.ofNat 32 operand).toNat) := by
        rw [headerNumber_eq p huid hper hmot hpow, hfits]
    _ = _ := requestOfNumbers_toNat 0x50 0 _

/-! ## One request of the requester -/

/-- A request answered OK is done, with its result. -/
theorem ask_of_ok {m : Mnemonic} {off : BitVec 8} {a r : Word} {s t : State}
    (hperf : performWord (reqWord m.op off a) { s with rsp := none } = .next t) (hrsp : t.rsp = some ⟨.ok, r⟩) :
    ask m off a s = .done r t := by
  simp only [ask, step_present, hperf, hrsp]

/-- A request answered with another status stops the requester. -/
theorem ask_of_not_ok {m : Mnemonic} {off : BitVec 8} {a : Word} {p : Response} {s t : State}
    (hperf : performWord (reqWord m.op off a) { s with rsp := none } = .next t) (hrsp : t.rsp = some p)
    (hp : p.status ≠ .ok) : ask m off a s = .stopped p t := by
  obtain ⟨status, r⟩ := p
  cases status
  case ok => exact absurd rfl hp
  case malformedFrame | contractViolation => simp only [ask, step_present, hperf, hrsp]

theorem ask_respond {m : Mnemonic} {off : BitVec 8} {a r : Word} (h : performWord (reqWord m.op off a) = respond r)
    (s : State) : ask m off a s = .done r { s with rsp := some ⟨.ok, r⟩ } :=
  ask_of_ok (by rw [h, respond_eq]) rfl

theorem ask_store {m : Mnemonic} {off : BitVec 8} {a : Word} {addr n v : Nat}
    (h : performWord (reqWord m.op off a) = store addr n v) (hb : addr + n ≤ 8) (s : State) :
    ask m off a s = .done 0 { s with buf := writeLE s.buf addr n v, rsp := some ⟨.ok, 0⟩ } :=
  ask_of_ok (by rw [h, store_inBounds hb]) rfl

theorem ask_load {m : Mnemonic} {off : BitVec 8} {a : Word} {addr n : Nat} {ext : Nat → Word}
    (h : performWord (reqWord m.op off a) = load addr n ext) (hb : addr + n ≤ 8) (s : State) :
    ask m off a s = .done (ext (readLE s addr n)) { s with rsp := some ⟨.ok, ext (readLE s addr n)⟩ } := by
  have hread : readLE { s with rsp := none } addr n = readLE s addr n := readLE_congr fun _ _ _ => rfl
  exact ask_of_ok (by rw [h, load_inBounds hb, hread]) rfl

theorem ask_load_outOfBounds {m : Mnemonic} {off : BitVec 8} {a : Word} {addr n : Nat} {ext : Nat → Word}
    (h : performWord (reqWord m.op off a) = load addr n ext) (hb : 8 < addr + n) (s : State) :
    ask m off a s = .stopped ⟨.contractViolation, 0⟩ { s with rsp := some ⟨.contractViolation, 0⟩ } :=
  ask_of_not_ok (by rw [h, load_outOfBounds hb]) rfl (by decide)

/-! ## PUT and GET (R42) -/

/-- A PUT whose store is in bounds writes the encode of its operand. -/
theorem putWith_done {enc st : Mnemonic} {off : BitVec 8} {x e : Word} {addr n v : Nat}
    (henc : performWord (reqWord enc.op 0 x) = respond e) (hst : performWord (reqWord st.op off e) = store addr n v)
    (hb : addr + n ≤ 8) (s : State) :
    putWith enc st off x s = .done 0 { s with buf := writeLE s.buf addr n v, rsp := some ⟨.ok, 0⟩ } := by
  rw [putWith, ask_respond henc, Run.andThen, ask_store hst hb]

/-- A GET whose load is in bounds returns the decode of the bytes it reads. -/
theorem getWith_done {ld dec : Mnemonic} {off : BitVec 8} {r : Word} {addr n : Nat} {ext : Nat → Word} {s : State}
    (hld : performWord (reqWord ld.op off 0) = load addr n ext) (hb : addr + n ≤ 8)
    (hdec : performWord (reqWord dec.op 0 (ext (readLE s addr n))) = respond r) :
    getWith ld dec off s = .done r { s with rsp := some ⟨.ok, r⟩ } := by
  rw [getWith, ask_load hld hb, Run.andThen, ask_respond hdec]

/-- The bytes of a store, read back as a number. -/
theorem readLE_writeLE (s : State) (addr n v : Nat) (p : Option Response) :
    readLE { s with buf := writeLE s.buf addr n v, rsp := p } addr n = v % 2 ^ (8 * n) := by
  refine readLE_of_bytes fun k hk => ?_
  rw [bufByte_writeLE, if_pos (by omega), Nat.add_sub_cancel_left]

/-- A store and a load of `n` bytes carry the wire integer in the low `k` bits of the operand through BUF. -/
structure CarriesWire (st ld : Mnemonic) (n k : Nat) : Prop where
  bits : 8 * n = k
  fits : k ≤ 32
  store : ∀ off a, performWord (reqWord st.op off a) = store off.toNat n (a.extractLsb' 0 k).toNat
  load : ∀ off a, performWord (reqWord ld.op off a) = load off.toNat n fun v => zext32 (BitVec.ofNat k v)

theorem carriesWire8 : CarriesWire .stu8 .ldu8 1 8 :=
  ⟨rfl, by decide, fun _ _ => performWord_of_row rfl rfl, fun _ _ => performWord_of_row rfl rfl⟩

theorem carriesWire16 : CarriesWire .stu16 .ldu16 2 16 :=
  ⟨rfl, by decide, fun _ _ => performWord_of_row rfl rfl, fun _ _ => performWord_of_row rfl rfl⟩

theorem carriesWire24 : CarriesWire .stu24 .ldu24 3 24 :=
  ⟨rfl, by decide, fun _ _ => performWord_of_row rfl rfl, fun _ _ => performWord_of_row rfl rfl⟩

/-- At 32 bits there is nothing to cut off or to extend. -/
theorem carriesWire32 : CarriesWire .stu32 .ldu32 4 32 where
  bits := rfl
  fits := le_rfl
  store off a := performWord_of_row rfl (by rw [BitVec.extractLsb'_eq_self]; rfl)
  load off a := performWord_of_row rfl (by simp only [zext32, BitVec.setWidth_eq]; rfl)

/-- A PUT and a GET over a carried wire integer: the GET decodes the integer that the PUT encoded. -/
theorem CarriesWire.putThenGet {enc st ld dec : Mnemonic} {n k : Nat} (carries : CarriesWire st ld n k) {x : Word}
    {wire : BitVec k} {ofWire : BitVec k → Word} (henc : performWord (reqWord enc.op 0 x) = respond (zext32 wire))
    (hdec : ∀ a, performWord (reqWord dec.op 0 a) = respond (ofWire (a.extractLsb' 0 k)))
    {off : BitVec 8} (hb : off.toNat + n ≤ 8) (s : State) :
    ∃ t u, putWith enc st off x s = .done 0 t ∧ getWith ld dec off t = .done (ofWire wire) u := by
  have hwire : (zext32 wire).extractLsb' 0 k = wire := extractLsb'_setWidth_word carries.fits wire
  have hst := carries.store off (zext32 wire)
  rw [hwire] at hst
  refine ⟨_, _, putWith_done henc hst hb s, getWith_done (carries.load off 0) hb ?_⟩
  rw [readLE_writeLE, carries.bits, Nat.mod_eq_of_lt wire.isLt, BitVec.ofNat_toNat, BitVec.setWidth_eq, hdec, hwire]

/-- A quantized integer never exceeds the maximum of its width. -/
theorem unormEnc_le (arith : Config.UnormArith) (N : Nat) (x : Word) : unormEnc arith N x ≤ Config.unormMax N := by
  unfold unormEnc
  dsimp only
  split_ifs <;> omega

/-- A quantized integer is a wire integer of its width. -/
theorem toNat_ofNat_unormEnc {N w : Nat} (hw : N ≤ w) (arith : Config.UnormArith) (x : Word) :
    (BitVec.ofNat w (unormEnc arith N x)).toNat = unormEnc arith N x := by
  have hle := unormEnc_le arith N x
  have hpow : 2 ^ N ≤ 2 ^ w := Nat.pow_le_pow_right two_pos hw
  have hpos : 0 < 2 ^ N := Nat.two_pow_pos N
  rw [BitVec.toNat_ofNat, Nat.mod_eq_of_lt (by rw [Config.unormMax] at hle; omega)]

/-- The encoder's result is that wire integer, zero-extended. -/
theorem ofNat_unormEnc_eq_zext32 {N : Nat} (hN : N ≤ 32) (arith : Config.UnormArith) (x : Word) :
    BitVec.ofNat 32 (unormEnc arith N x) = zext32 (BitVec.ofNat N (unormEnc arith N x)) := by
  apply BitVec.eq_of_toNat_eq
  rw [zext32, BitVec.toNat_setWidth_of_le hN, toNat_ofNat_unormEnc hN, toNat_ofNat_unormEnc le_rfl]

/-- A PUT and a GET of a UNorm format: the GET dequantizes the integer that the PUT quantized. -/
theorem CarriesWire.putThenGet_unorm {enc st ld dec : Mnemonic} {n N : Nat} (carries : CarriesWire st ld n N) {x : Word}
    (henc : performWord (reqWord enc.op 0 x) = respond (BitVec.ofNat 32 (unormEnc Config.unormEncArith N x)))
    (hdec : ∀ a, performWord (reqWord dec.op 0 a) = respond (unormDec N (a.extractLsb' 0 N).toNat))
    {off : BitVec 8} (hb : off.toNat + n ≤ 8) (s : State) :
    ∃ t u, putWith enc st off x s = .done 0 t ∧
      getWith ld dec off t = .done (unormDec N (unormEnc Config.unormEncArith N x)) u := by
  rw [ofNat_unormEnc_eq_zext32 carries.fits] at henc
  have h := carries.putThenGet (ofWire := fun wire => unormDec N wire.toNat) henc hdec hb s
  rwa [toNat_ofNat_unormEnc le_rfl] at h

/-- Settles O57: each format by the store and the load that carry its wire integer. -/
theorem putThenGet : Obligations.PutThenGet := by
  intro s off x
  refine ⟨fun h => ?_, fun h => ?_, fun h => ?_, fun h => ?_, fun h => ?_, fun h => ?_, fun h => ?_, fun h => ?_⟩
  · exact carriesWire32.putThenGet (enc := .f32enc) (dec := .f32dec) (wire := x) (ofWire := fun a => a)
      (performWord_of_row rfl (by rw [zext32, BitVec.setWidth_eq]; rfl))
      (fun a => performWord_of_row rfl (by rw [BitVec.extractLsb'_eq_self]; rfl)) (by omega) s
  · exact carriesWire16.putThenGet (enc := .f16enc) (dec := .f16dec) (performWord_of_row rfl rfl)
      (fun a => performWord_of_row rfl rfl) (by omega) s
  · exact carriesWire16.putThenGet (enc := .bf16enc) (dec := .bf16dec) (performWord_of_row rfl rfl)
      (fun a => performWord_of_row rfl rfl) (by omega) s
  · exact carriesWire24.putThenGet (enc := .bf24enc) (dec := .bf24dec) (performWord_of_row rfl rfl)
      (fun a => performWord_of_row rfl rfl) (by omega) s
  · exact carriesWire8.putThenGet_unorm (enc := .un8enc) (dec := .un8dec) (performWord_of_row rfl rfl)
      (fun a => performWord_of_row rfl rfl) (by omega) s
  · exact carriesWire16.putThenGet_unorm (enc := .un16enc) (dec := .un16dec) (performWord_of_row rfl rfl)
      (fun a => performWord_of_row rfl rfl) (by omega) s
  · exact carriesWire24.putThenGet_unorm (enc := .un24enc) (dec := .un24dec) (performWord_of_row rfl rfl)
      (fun a => performWord_of_row rfl rfl) (by omega) s
  · rw [getF32, getWith, ask_load_outOfBounds (carriesWire32.load off 0) (by omega), Run.andThen]

end Sys2Proof.Machine
end

section
/-! PROOFS, 40_portability.md: the host order queries, the byte exchanges and the count of leading zeros (R50 to R54). A
byte exchange is described by its number in base 2^8, the count by the bits it passes over. -/

namespace Sys2Proof.Machine

/-! ## The host order queries (R50, R51) -/

/-- A host constant is delivered as 1 or 0. -/
theorem zext32_flagBit (b : Bool) : zext32 (flagBit 1 b) = if b then 1 else 0 := by cases b <;> rfl

theorem exec_hostle (s : State) :
    exec .hostle s = .next { s with rsp := some ⟨.ok, if s.host.le then 1 else 0⟩ } := by
  rw [← zext32_flagBit]
  rfl

theorem exec_bflsb (s : State) :
    exec .bflsb s = .next { s with rsp := some ⟨.ok, if s.host.bitfieldLsbFirst then 1 else 0⟩ } := by
  rw [← zext32_flagBit]
  rfl

/-- Settles O6: the two rows ignore their operands, and each query reports its constant. -/
theorem hostOrderQueries : Obligations.HostOrderQueries := fun s off a =>
  ⟨decode_reqWord 0x01 off a, exec_hostle s, decode_reqWord 0x02 off a, exec_bflsb s⟩

/-! ## The byte exchanges (R52, R53) -/

theorem bswap16_toNat (v : BitVec 16) : (bswap16 v).toNat = v.toNat % 2 ^ 8 * 2 ^ 8 + v.toNat / 2 ^ 8 := by
  have hv := v.isLt
  simp only [bswap16, toNat_append_eq_add, BitVec.extractLsb'_toNat, Nat.shiftRight_eq_div_pow]
  omega

theorem bswap16_bswap16 (v : BitVec 16) : bswap16 (bswap16 v) = v := by
  apply BitVec.eq_of_toNat_eq
  have hv := v.isLt
  rw [bswap16_toNat, bswap16_toNat]
  omega

theorem exec_bswap16 (v : BitVec 16) (s : State) :
    exec (.bswap16 v) s = .next { s with rsp := some ⟨.ok, zext32 (bswap16 v)⟩ } := rfl

/-- The delivered number: the low two bytes of `a` exchanged, zeros above. -/
theorem zext32_bswap16_toNat (a : Word) :
    (zext32 (bswap16 (a.extractLsb' 0 16))).toNat = a.toNat % 2 ^ 8 * 2 ^ 8 + a.toNat / 2 ^ 8 % 2 ^ 8 := by
  rw [zext32, BitVec.toNat_setWidth_of_le (by omega), bswap16_toNat, BitVec.extractLsb'_toNat, Nat.shiftRight_zero]
  omega

/-- Settles O7: the exchange is a number of two digits, and the low half of the result is the exchange again. -/
theorem byteSwap16 : Obligations.ByteSwap16 := by
  intro s off a v
  have hswap : (zext32 (bswap16 v)).toNat = _ := zext32_bswap16_toNat a
  refine ⟨decode_reqWord 0x03 off a, _, exec_bswap16 v s, hswap, fun hequal => by omega, ?_⟩
  have hlow : (zext32 (bswap16 v)).extractLsb' 0 16 = bswap16 v := extractLsb'_setWidth_word (by omega) _
  rw [hlow, exec_bswap16, bswap16_bswap16, zext32]

theorem bswap32_toNat (v : Word) :
    (bswap32 v).toNat = v.toNat % 2 ^ 8 * 2 ^ 24 + v.toNat / 2 ^ 8 % 2 ^ 8 * 2 ^ 16 +
      v.toNat / 2 ^ 16 % 2 ^ 8 * 2 ^ 8 + v.toNat / 2 ^ 24 := by
  have hv := v.isLt
  simp only [bswap32, toNat_append_eq_add, BitVec.extractLsb'_toNat, Nat.shiftRight_eq_div_pow]
  omega

/-- Bit `i` of the reversal stands at the same place of the mirrored byte. -/
theorem bswap32_getLsbD (v : Word) {i : Nat} (hi : i < 32) :
    (bswap32 v).getLsbD i = v.getLsbD (8 * (3 - i / 8) + i % 8) := by
  simp only [bswap32, BitVec.getLsbD_append, BitVec.getLsbD_extractLsb']
  interval_cases i <;> simp

theorem bswap32_bswap32 (v : Word) : bswap32 (bswap32 v) = v := by
  apply BitVec.eq_of_getLsbD_eq
  intro i hi
  have hmirror : 8 * (3 - (8 * (3 - i / 8) + i % 8) / 8) + (8 * (3 - i / 8) + i % 8) % 8 = i := by omega
  rw [bswap32_getLsbD _ hi, bswap32_getLsbD _ (by omega), hmirror]

theorem exec_bswap32 (v : Word) (s : State) :
    exec (.bswap32 v) s = .next { s with rsp := some ⟨.ok, bswap32 v⟩ } := rfl

/-- Settles O8: the reversal is a number of four digits, and undoes itself. -/
theorem byteSwap32 : Obligations.ByteSwap32 := fun s off a =>
  ⟨decode_reqWord 0x04 off a, _, exec_bswap32 a s, bswap32_toNat a, by rw [exec_bswap32, bswap32_bswap32]⟩

/-! ## The count of leading zeros (R54) -/

theorem zerosBelow_of_bit {v : BitVec 16} {k : Nat} (h : v.getLsbD k = true) : zerosBelow v (k + 1) = 0 := by
  simp [zerosBelow, h]

theorem zerosBelow_of_not_bit {v : BitVec 16} {k : Nat} (h : v.getLsbD k = false) :
    zerosBelow v (k + 1) = 1 + zerosBelow v k := by
  simp [zerosBelow, h]

/-- Where every bit below `k` is zero the count runs to the end. -/
theorem zerosBelow_of_forall_zero {v : BitVec 16} {k : Nat} (h : ∀ j < k, v.getLsbD j = false) :
    zerosBelow v k = k := by
  induction k with
  | zero => rfl
  | succ k ih => rw [zerosBelow_of_not_bit (h k (by omega)), ih fun j hj => h j (by omega), Nat.add_comm]

/-- The count stops at the highest one bit below `k`. -/
theorem zerosBelow_of_highestOne {v : BitVec 16} {p k : Nat} (hpk : p < k) (hone : v.getLsbD p = true)
    (habove : ∀ j, p < j → j < k → v.getLsbD j = false) : zerosBelow v k = k - 1 - p := by
  induction k with
  | zero => omega
  | succ k ih =>
    rcases Nat.lt_succ_iff_lt_or_eq.1 hpk with hlt | rfl
    · rw [zerosBelow_of_not_bit (habove k hlt (by omega)), ih hlt fun j hpj hj => habove j hpj (by omega)]
      omega
    · rw [zerosBelow_of_bit hone]
      omega

theorem clz16_zero : clz16 0 = 16 := zerosBelow_of_forall_zero fun _ _ => BitVec.getLsbD_zero

theorem clz16_of_highestOne {v : BitVec 16} {p : Nat} (hp : p < 16) (hone : v.getLsbD p = true)
    (habove : ∀ j, p < j → j < 16 → v.getLsbD j = false) : clz16 v = 15 - p :=
  zerosBelow_of_highestOne hp hone habove

theorem exec_clz16 (v : BitVec 16) (s : State) :
    exec (.clz16 v) s = .next { s with rsp := some ⟨.ok, BitVec.ofNat 32 (clz16 v)⟩ } := rfl

/-- Settles O9: the low half of `a` has the bits of `a`, so the count stops at the highest one bit given. -/
theorem countLeadingZeros16 : Obligations.CountLeadingZeros16 := by
  intro s off a v
  have hbit {j : Nat} (hj : j < 16) : v.getLsbD j = a.getLsbD j := by simp [v, hj]
  refine ⟨decode_reqWord 0x05 off a, fun hzero => ?_, fun p hp hone habove => ?_⟩
  · rw [exec_clz16, hzero, clz16_zero]
    rfl
  · rw [exec_clz16, clz16_of_highestOne hp ((hbit hp).trans hone) fun j hpj hj => (hbit hj).trans (habove j hpj hj)]

end Sys2Proof.Machine
end

section
/-! PROOFS, 41_loadstore.md: what the loads deliver (R61 to R67), what the stores write (R68 to R74), and one after
another (R75). A load of `n` bytes extends the number that they compose to, either way; a signed store is the unsigned one
of its width. -/

namespace Sys2Proof.Machine

/-! ## Extending a wire integer (00_scope.md section 4) -/

/-- At 32 bits there is nothing to extend. -/
theorem zext32_word (v : Word) : zext32 v = v := BitVec.setWidth_eq v

theorem sext32_word (v : Word) : sext32 v = v := BitVec.signExtend_eq v

theorem zext32_ofNat_toNat {k v : Nat} (hk : k ≤ 32) (hv : v < 2 ^ k) : (zext32 (BitVec.ofNat k v)).toNat = v := by
  rw [zext32, BitVec.toNat_setWidth_of_le hk, BitVec.toNat_ofNat, Nat.mod_eq_of_lt hv]

/-- A sign-extended wire integer is its own two's-complement value. -/
theorem sext32_ofNat_toInt {k v : Nat} (hk : k ≤ 32) (hv : v < 2 ^ k) :
    (sext32 (BitVec.ofNat k v)).toInt = if 2 * v < 2 ^ k then (v : Int) else v - 2 ^ k := by
  rw [sext32, BitVec.toInt_signExtend_of_le hk, BitVec.toInt_eq_toNat_cond, BitVec.toNat_ofNat, Nat.mod_eq_of_lt hv]
  push_cast
  rfl

/-- The two extensions differ above the wire integer only. -/
theorem zext32_eq_sext32_and {k : Nat} (v : BitVec k) : zext32 v = sext32 v &&& zext32 (.allOnes k) := by
  apply BitVec.eq_of_getLsbD_eq
  intro i hi
  rw [zext32, zext32, sext32, BitVec.getLsbD_and, BitVec.getLsbD_setWidth, BitVec.getLsbD_setWidth,
    BitVec.getLsbD_signExtend, BitVec.getLsbD_allOnes]
  by_cases hik : i < k
  · simp [hi, hik]
  · simp [hik, BitVec.getLsbD_of_ge v i (by omega)]

/-! ## Loads (R60 to R67) -/

/-- A load of `n` bytes that zero-extends their value. -/
def zextLoad (off n : Nat) : State → Result := load off n fun v => zext32 (BitVec.ofNat (8 * n) v)

/-- A load of `n` bytes that sign-extends their value. -/
def sextLoad (off n : Nat) : State → Result := load off n fun v => sext32 (BitVec.ofNat (8 * n) v)

theorem exec_ldu8 (off : Nat) : exec (.ldu8 off) = zextLoad off 1 := rfl

theorem exec_ldu16 (off : Nat) : exec (.ldu16 off) = zextLoad off 2 := rfl

theorem exec_ldu24 (off : Nat) : exec (.ldu24 off) = zextLoad off 3 := rfl

theorem exec_ldu32 (off : Nat) : exec (.ldu32 off) = zextLoad off 4 :=
  congrArg (load off 4) (funext fun v => (zext32_word (BitVec.ofNat 32 v)).symm)

theorem exec_ldi16 (off : Nat) : exec (.ldi16 off) = sextLoad off 2 := rfl

theorem exec_ldi24 (off : Nat) : exec (.ldi24 off) = sextLoad off 3 := rfl

theorem exec_ldi32 (off : Nat) : exec (.ldi32 off) = sextLoad off 4 :=
  congrArg (load off 4) (funext fun v => (sext32_word (BitVec.ofNat 32 v)).symm)

/-- The last byte read is the most significant. -/
theorem readLE_succ_last (s : State) (off n : Nat) :
    readLE s off (n + 1) = readLE s off n + (s.bufByte (off + n)).toNat * 2 ^ (8 * n) := by
  induction n generalizing off with
  | zero => simp [readLE]
  | succ n ih =>
    have hlast : off + 1 + n = off + (n + 1) := by omega
    rw [readLE, ih, hlast, readLE]
    ring

theorem readLE_one (s : State) (off : Nat) : readLE s off 1 = (s.bufByte (off + 0)).toNat := rfl

theorem readLE_two (s : State) (off : Nat) :
    readLE s off 2 = (s.bufByte (off + 0)).toNat + (s.bufByte (off + 1)).toNat * 2 ^ 8 := by
  rw [readLE_succ_last, readLE_one]

theorem readLE_three (s : State) (off : Nat) :
    readLE s off 3 = (s.bufByte (off + 0)).toNat + (s.bufByte (off + 1)).toNat * 2 ^ 8 +
      (s.bufByte (off + 2)).toNat * 2 ^ 16 := by
  rw [readLE_succ_last, readLE_two]

theorem readLE_four (s : State) (off : Nat) :
    readLE s off 4 = (s.bufByte (off + 0)).toNat + (s.bufByte (off + 1)).toNat * 2 ^ 8 +
      (s.bufByte (off + 2)).toNat * 2 ^ 16 + (s.bufByte (off + 3)).toNat * 2 ^ 24 := by
  rw [readLE_succ_last, readLE_three]

/-- A zero-extending load in bounds delivers the number read. -/
theorem zextLoad_inBounds {off n v : Nat} {s : State} (hn : n ≤ 4) (hb : off + n ≤ 8) (hv : readLE s off n = v) :
    ∃ r : Word, zextLoad off n s = .next { s with rsp := some ⟨.ok, r⟩ } ∧ r.toNat = v :=
  ⟨_, load_inBounds hb _ s, (zext32_ofNat_toNat (by omega) (readLE_lt s off n)).trans hv⟩

/-- The sign of the number read is the top bit of its last byte. -/
theorem two_mul_readLE_lt_iff (s : State) (off n : Nat) :
    2 * readLE s off (n + 1) < 2 ^ (8 * (n + 1)) ↔ (s.bufByte (off + n)).toNat < 2 ^ 7 := by
  have hlow := readLE_lt s off n
  rw [readLE_succ_last, mul_add_one, pow_add]
  constructor
  · intro h
    by_contra hge
    have := Nat.mul_le_mul_right (2 ^ (8 * n)) (Nat.not_lt.1 hge)
    omega
  · intro h
    have : _ ≤ 127 * 2 ^ (8 * n) := Nat.mul_le_mul_right _ (Nat.le_of_lt_succ h)
    omega

/-- A sign-extending load in bounds delivers the two's-complement value of the number read, in the low bits as the
zero-extending load does. -/
theorem sextLoad_inBounds {off n v : Nat} {s : State} (hn : n + 1 ≤ 4) (hb : off + (n + 1) ≤ 8)
    (hv : readLE s off (n + 1) = v) :
    ∃ r : Word, sextLoad off (n + 1) s = .next { s with rsp := some ⟨.ok, r⟩ } ∧
      zextLoad off (n + 1) s = .next { s with rsp := some ⟨.ok, r &&& zext32 (.allOnes (8 * (n + 1)))⟩ } ∧
      r.toInt = if ((s.bufByte (off + n)).toNat : Int) < 2 ^ 7 then (v : Int) else v - 2 ^ (8 * (n + 1)) := by
  subst hv
  refine ⟨_, load_inBounds hb _ s, ?_, ?_⟩
  · rw [← zext32_eq_sext32_and]
    exact load_inBounds hb _ s
  · rw [sext32_ofNat_toInt (by omega) (readLE_lt s off _)]
    simp only [two_mul_readLE_lt_iff]
    norm_cast

/-- Settles O10: each unsigned load zero-extends the composition of its bytes. -/
theorem unsignedLoads : Obligations.UnsignedLoads := by
  refine ⟨fun off a => ⟨decode_reqWord 0x10 off a, decode_reqWord 0x11 off a, decode_reqWord 0x12 off a,
    decode_reqWord 0x13 off a⟩, fun s o => ?_⟩
  intro b violation
  have hviolation {n : Nat} (h : 8 < o + n) : zextLoad o n s = violation := load_outOfBounds h _ s
  rw [exec_ldu8, exec_ldu16, exec_ldu24, exec_ldu32]
  refine ⟨fun h => ?_, fun h => hviolation (by omega), fun h => ?_, fun h => hviolation (by omega), fun h => ?_,
    fun h => hviolation (by omega), fun h => ?_, fun h => hviolation (by omega)⟩
  · exact zextLoad_inBounds (by omega) (by omega) (readLE_one s o)
  · exact zextLoad_inBounds (by omega) (by omega) (readLE_two s o)
  · exact zextLoad_inBounds (by omega) (by omega) (readLE_three s o)
  · exact zextLoad_inBounds (by omega) (by omega) (readLE_four s o)

/-- Settles O11: each signed load sign-extends the composition of its bytes; its low bits are all of them at 32 bits. -/
theorem signedLoads : Obligations.SignedLoads := by
  refine ⟨fun off a => ⟨decode_reqWord 0x15 off a, decode_reqWord 0x16 off a, decode_reqWord 0x17 off a⟩,
    fun s o => ?_⟩
  intro b violation
  have hviolation {n : Nat} (h : 8 < o + n) : sextLoad o n s = violation := load_outOfBounds h _ s
  rw [exec_ldu16, exec_ldu24, exec_ldu32, exec_ldi16, exec_ldi24, exec_ldi32]
  refine ⟨fun h => ?_, fun h => hviolation (by omega), fun h => ?_, fun h => hviolation (by omega), fun h => ?_,
    fun h => hviolation (by omega)⟩
  · obtain ⟨r, hsext, hzext, hr⟩ := sextLoad_inBounds (by omega) (by omega) (readLE_two s o)
    exact ⟨r, hsext, hzext, by rw [hr]; push_cast; rfl⟩
  · obtain ⟨r, hsext, hzext, hr⟩ := sextLoad_inBounds (by omega) (by omega) (readLE_three s o)
    exact ⟨r, hsext, hzext, by rw [hr]; push_cast; rfl⟩
  · obtain ⟨r, hsext, hzext, hr⟩ := sextLoad_inBounds (by omega) (by omega) (readLE_four s o)
    have hmask : r &&& zext32 (.allOnes 32) = r := by rw [zext32_word, BitVec.and_allOnes]
    exact ⟨r, hsext, hmask ▸ hzext, by rw [hr]; push_cast; rfl⟩

/-! ## Stores (R68 to R74) -/

/-- A store in bounds does what `Stored` says. -/
theorem store_stored {off n : Nat} (hb : off + n ≤ 8) (v : Nat) (s : State) :
    ∃ t, store off n v s = .next t ∧ Stored off n v s t := by
  refine ⟨_, store_inBounds hb v s, rfl, fun k hk => ?_, fun a ha => ?_, rfl, rfl, rfl⟩
  · rw [bufByte_writeLE, if_pos (by omega), Nat.add_sub_cancel_left]
  · rw [bufByte_writeLE, if_neg (by omega)]

/-- A load reads back the bytes of a store of its width. -/
theorem Stored.load_eq {off n v : Nat} {s t : State} (h : Stored off n v s t) (hb : off + n ≤ 8) (ext : Nat → Word) :
    load off n ext t = .next { t with rsp := some ⟨.ok, ext (v % 2 ^ (8 * n))⟩ } := by
  rw [load_inBounds hb, readLE_of_bytes h.inside]

theorem Stored.zextLoad_eq {off n : Nat} {v : BitVec (8 * n)} {s t : State} (h : Stored off n v.toNat s t)
    (hb : off + n ≤ 8) : zextLoad off n t = .next { t with rsp := some ⟨.ok, zext32 v⟩ } := by
  rw [zextLoad, h.load_eq hb, Nat.mod_eq_of_lt v.isLt, BitVec.ofNat_toNat, BitVec.setWidth_eq]

theorem Stored.sextLoad_eq {off n : Nat} {v : BitVec (8 * n)} {s t : State} (h : Stored off n v.toNat s t)
    (hb : off + n ≤ 8) : sextLoad off n t = .next { t with rsp := some ⟨.ok, sext32 v⟩ } := by
  rw [sextLoad, h.load_eq hb, Nat.mod_eq_of_lt v.isLt, BitVec.ofNat_toNat, BitVec.setWidth_eq]

/-- Settles O12: each store in bounds is `Stored`, and a signed store is by definition the unsigned one. -/
theorem storesWriteTheirBytes : Obligations.StoresWriteTheirBytes := by
  refine ⟨fun off a => ⟨decode_reqWord 0x20 off a, decode_reqWord 0x21 off a, decode_reqWord 0x22 off a,
    decode_reqWord 0x23 off a, decode_reqWord 0x25 off a, decode_reqWord 0x26 off a, decode_reqWord 0x27 off a⟩,
    fun s o => ?_⟩
  intro violation
  have hviolation {n : Nat} (h : 8 < o + n) (v : Nat) : store o n v s = violation := store_outOfBounds h v s
  refine ⟨fun v h => store_stored (by omega) _ s, fun v h => store_stored (by omega) _ s,
    fun v h => store_stored (by omega) _ s, fun v h => store_stored (by omega) _ s, fun v h => ?_, fun v h => ?_,
    fun v h => ?_, fun v h => hviolation (by omega) _, fun v h => ⟨hviolation (by omega) _, hviolation (by omega) _⟩,
    fun v h => ⟨hviolation (by omega) _, hviolation (by omega) _⟩,
    fun v h => ⟨hviolation (by omega) _, hviolation (by omega) _⟩⟩
  · obtain ⟨t, hstore, hstored⟩ := store_stored (off := o) (n := 2) (by omega) v.toNat s
    exact ⟨t, hstore, hstore, hstored⟩
  · have hb : o + 3 ≤ 8 := by omega
    obtain ⟨t, hstore, hstored⟩ := store_stored hb v.toNat s
    exact ⟨t, hstore, hstore, hstored, hstored.sextLoad_eq hb⟩
  · obtain ⟨t, hstore, hstored⟩ := store_stored (off := o) (n := 4) (by omega) v.toNat s
    exact ⟨t, hstore, hstore, hstored⟩

/-! ## One after another (R75) -/

/-- After a store in bounds both loads of its width return what was stored, each extended its own way. -/
theorem store_then_load {off n : Nat} (hb : off + n ≤ 8) (v : BitVec (8 * n)) (s : State) :
    ∃ t, store off n v.toNat s = .next t ∧ zextLoad off n t = .next { t with rsp := some ⟨.ok, zext32 v⟩ } ∧
      sextLoad off n t = .next { t with rsp := some ⟨.ok, sext32 v⟩ } := by
  obtain ⟨t, hstore, hstored⟩ := store_stored hb v.toNat s
  exact ⟨t, hstore, hstored.zextLoad_eq hb, hstored.sextLoad_eq hb⟩

/-- Settles O13, width by width. -/
theorem loadAfterStore : Obligations.LoadAfterStore := by
  refine fun s o => ⟨fun v hb => ?_, fun v hb => ?_, fun v hb => ?_, fun v hb => ?_⟩
  · obtain ⟨t, hstore, hzext, -⟩ := store_then_load hb v s
    exact ⟨t, hstore, hzext⟩
  · obtain ⟨t, hstore, hloads⟩ := store_then_load hb v s
    exact ⟨t, hstore, hstore, hloads⟩
  · obtain ⟨t, hstore, hloads⟩ := store_then_load hb v s
    exact ⟨t, hstore, hstore, hloads⟩
  · obtain ⟨t, hstore, hloads⟩ := store_then_load hb v s
    rw [zext32_word, sext32_word, ← exec_ldu32, ← exec_ldi32] at hloads
    exact ⟨t, hstore, hstore, hloads⟩

/-- A store whose contract is kept is in bounds. -/
theorem inBounds_of_contractKept {i : Instr} {off n : Nat} (hstored : storedBytes i = some (off, n))
    (hkept : contractKept i = true) : off + n ≤ 8 := by
  cases i
  case stu8 | stu16 | stu24 | stu32 | sti16 | sti24 | sti32 => cases hstored; exact of_decide_eq_true hkept
  all_goals cases hstored

/-- Bytes written to disjoint ranges of a BUF in canonical form make one list in either order. -/
theorem writeLE_comm {m : Memory} (h : m.wf) {off n off' n' : Nat} (hb : off + n ≤ 8) (hb' : off' + n' ≤ 8)
    (hdisjoint : off + n ≤ off' ∨ off' + n' ≤ off) (v v' : Nat) :
    writeLE (writeLE m off n v) off' n' v' = writeLE (writeLE m off' n' v') off n v := by
  refine Memory.ext_of_wf (writeLE_wf (writeLE_wf h hb v) hb' v') (writeLE_wf (writeLE_wf h hb' v') hb v) fun a => ?_
  simp only [writeLE_read?]
  by_cases hin : off ≤ a ∧ a < off + n
  · have hout : ¬(off' ≤ a ∧ a < off' + n') := by omega
    simp only [if_pos hin, if_neg hout]
  · simp only [if_neg hin]

/-- Settles O14: both stores are in bounds, so each order answers OK, and their bytes make one list. -/
theorem disjointStoresCommute : Obligations.DisjointStoresCommute := by
  intro s i j off n off' n' hwf hi hj hkepti hkeptj hdisjoint
  have hb := inBounds_of_contractKept hi hkepti
  have hb' := inBounds_of_contractKept hj hkeptj
  obtain ⟨v, hv⟩ := exec_eq_store hi
  obtain ⟨v', hv'⟩ := exec_eq_store hj
  rw [hv, hv']
  refine ⟨_, _, _, store_inBounds hb v s, store_inBounds hb' v' _, store_inBounds hb' v' s, ?_⟩
  rw [store_inBounds hb, writeLE_comm hwf hb hb' hdisjoint]

end Sys2Proof.Machine
end

section
/-! PROOFS, 42_float.md: the converters between binary32 patterns and the wire integers (R80 to R91). Sign, exponent and
mantissa are digits of a pattern's number, and each conversion is described by the number it answers. -/

namespace Sys2Proof.Machine

/-! ## The fields of a pattern, as numbers -/

theorem signBit_eq (x : Word) : signBit x = x.toNat / 2 ^ 31 := by
  rw [signBit, BitVec.extractLsb'_toNat, Nat.shiftRight_eq_div_pow]
  omega

theorem expField_eq (x : Word) : expField x = x.toNat / 2 ^ 23 % 2 ^ 8 := by
  rw [expField, BitVec.extractLsb'_toNat, Nat.shiftRight_eq_div_pow]

theorem manField_eq (x : Word) : manField x = x.toNat % 2 ^ 23 := by
  rw [manField, BitVec.extractLsb'_toNat, Nat.shiftRight_zero]

theorem signBit_lt (x : Word) : signBit x < 2 := BitVec.isLt _

/-- A field of `n` bits standing `i` bits above the end. -/
theorem toNat_halfField (h : BitVec 16) (i : Nat) {n : Nat} (hn : n ≤ 32) :
    ((h.extractLsb' i n).setWidth 32).toNat = h.toNat / 2 ^ i % 2 ^ n := by
  rw [BitVec.toNat_setWidth_of_le hn, BitVec.extractLsb'_toNat, Nat.shiftRight_eq_div_pow]

/-- The number of a binary32 pattern put together from its fields, the mantissa that of a half pattern. -/
theorem toNat_or_fields {s e m : Word} (hs : s.toNat < 2) (he : e.toNat < 2 ^ 8) (hm : m.toNat < 2 ^ 10) :
    ((s <<< 31) ||| (e <<< 23) ||| (m <<< 13)).toNat = s.toNat * 2 ^ 31 + e.toNat * 2 ^ 23 + m.toNat * 2 ^ 13 := by
  have hshift {v : Word} {k : Nat} (h : v.toNat * 2 ^ k < 2 ^ 32) : (v <<< k).toNat = v.toNat * 2 ^ k := by
    rw [BitVec.toNat_shiftLeft, Nat.shiftLeft_eq, Nat.mod_eq_of_lt h]
  rw [BitVec.toNat_or, BitVec.toNat_or, hshift (by omega), hshift (by omega), hshift (by omega), Nat.or_assoc,
    mul_comm e.toNat, ← Nat.two_pow_add_eq_or_of_lt (by omega), mul_comm s.toNat,
    ← Nat.two_pow_add_eq_or_of_lt (by omega), add_assoc]

/-! ## F16DEC (R83) -/

/-- The leading zeros of a 16-bit number whose highest one bit is bit `p`. -/
theorem clz16_of_toNat {v : BitVec 16} {p : Nat} (hlo : 2 ^ p ≤ v.toNat) (hhi : v.toNat < 2 ^ (p + 1)) :
    clz16 v = 15 - p := by
  have hp : p < 16 := (Nat.pow_lt_pow_iff_right (by decide : 1 < 2)).1 (hlo.trans_lt v.isLt)
  refine clz16_of_highestOne hp (Nat.testBit_of_two_pow_le_and_two_pow_add_one_gt hlo hhi) fun j hpj _ => ?_
  exact Nat.testBit_lt_two_pow (hhi.trans_le (Nat.pow_le_pow_right two_pos hpj))

/-- A field is compared as its number. -/
theorem halfField_eq_iff (h : BitVec 16) (i : Nat) {n : Nat} (hn : n ≤ 32) (c : Word) :
    (h.extractLsb' i n).setWidth 32 = c ↔ h.toNat / 2 ^ i % 2 ^ n = c.toNat := by
  rw [← toNat_halfField h i hn, BitVec.toNat_inj]

/-- R83 on numbers: the sign stands on top, and below it what the fields `e` and `m` become. -/
theorem f16dec_toNat (h : BitVec 16) :
    (f16dec h).toNat = h.toNat / 2 ^ 15 * 2 ^ 31 +
      let e := h.toNat / 2 ^ 10 % 2 ^ 5
      let m := h.toNat % 2 ^ 10
      let lz := clz16 (BitVec.ofNat 16 m)
      if e = 31 then 255 * 2 ^ 23 + m * 2 ^ 13
      else if e = 0 ∧ m = 0 then 0
      else if e = 0 then (118 - lz) * 2 ^ 23 + m * 2 ^ (lz - 5) % 2 ^ 10 * 2 ^ 13
      else (e + 112) * 2 ^ 23 + m * 2 ^ 13 := by
  have hlt := h.isLt
  have hs := toNat_halfField h 15 (n := 1) (by omega)
  have he := toNat_halfField h 10 (n := 5) (by omega)
  have hm := toNat_halfField h 0 (n := 10) (by omega)
  have hones : ((0xFF <<< 23 : Nat) : Word) = 0xFF#32 <<< 23 := by decide
  have hman : ((h.extractLsb' 0 10).setWidth 32).setWidth 16 = BitVec.ofNat 16 (h.toNat % 2 ^ 10) := by
    apply BitVec.eq_of_toNat_eq
    rw [BitVec.toNat_setWidth, hm, BitVec.toNat_ofNat, pow_zero, Nat.div_one]
  simp only [f16dec, halfField_eq_iff h _ (by omega : 10 ≤ 32), halfField_eq_iff h _ (by omega : 5 ≤ 32), hones, hman,
    BitVec.reduceToNat, pow_zero, Nat.div_one] at hm ⊢
  generalize clz16 _ = lz
  split_ifs
  · rw [toNat_or_fields (by omega) (by decide) (by omega), BitVec.toNat_ofNat]
    omega
  · rw [BitVec.toNat_shiftLeft, Nat.shiftLeft_eq]
    omega
  · have hexp : (BitVec.ofNat 32 (118 - lz)).toNat = 118 - lz := BitVec.toNat_ofNat .. ▸ Nat.mod_eq_of_lt (by omega)
    have hrest : ((h.extractLsb' 0 10).setWidth 32 <<< (lz - 5) &&& 0x3FF : Word).toNat =
        h.toNat % 2 ^ 10 * 2 ^ (lz - 5) % 2 ^ 10 := by
      rw [BitVec.toNat_and, BitVec.toNat_shiftLeft, Nat.shiftLeft_eq, hm]
      show _ &&& (2 ^ 10 - 1) = _
      rw [Nat.and_two_pow_sub_one_eq_mod, Nat.mod_mod_of_dvd _ (by decide)]
    rw [toNat_or_fields (by omega) (by omega) (by omega)]
    omega
  · have h112 : (112 : Word).toNat = 112 := rfl
    have hexp : ((h.extractLsb' 10 5).setWidth 32 + 112 : Word).toNat = h.toNat / 2 ^ 10 % 2 ^ 5 + 112 := by
      rw [BitVec.toNat_add, he, h112]
      exact Nat.mod_eq_of_lt (by omega)
    rw [toNat_or_fields (by omega) (by omega) (by omega), hexp]
    omega

/-- A number whose highest one bit is bit `p`, moved up until that bit is bit `k`. -/
theorem normalized_bounds {m p k : Nat} (hp : p ≤ k) (hlo : 2 ^ p ≤ m) (hhi : m < 2 ^ (p + 1)) :
    2 ^ k ≤ m * 2 ^ (k - p) ∧ m * 2 ^ (k - p) < 2 ^ (k + 1) := by
  have hk : 2 ^ p * 2 ^ (k - p) = 2 ^ k := by rw [← pow_add, Nat.add_sub_cancel' hp]
  have hk' : 2 ^ (p + 1) * 2 ^ (k - p) = 2 ^ (k + 1) := by rw [pow_succ, mul_right_comm, hk, pow_succ]
  exact ⟨hk ▸ Nat.mul_le_mul_right _ hlo, hk' ▸ Nat.mul_lt_mul_of_pos_right hhi (Nat.two_pow_pos _)⟩

section
variable {h : BitVec 16}

theorem f16dec_toNat_of_nonfinite (he : h.toNat / 2 ^ 10 % 2 ^ 5 = 31) :
    (f16dec h).toNat = h.toNat / 2 ^ 15 * 2 ^ 31 + (255 * 2 ^ 23 + h.toNat % 2 ^ 10 * 2 ^ 13) := by
  rw [f16dec_toNat, if_pos he]

theorem f16dec_toNat_of_zero (he : h.toNat / 2 ^ 10 % 2 ^ 5 = 0) (hm : h.toNat % 2 ^ 10 = 0) :
    (f16dec h).toNat = h.toNat / 2 ^ 15 * 2 ^ 31 := by
  rw [f16dec_toNat, if_neg (by omega), if_pos ⟨he, hm⟩, add_zero]

theorem f16dec_toNat_of_normal (he : 1 ≤ h.toNat / 2 ^ 10 % 2 ^ 5) (he' : h.toNat / 2 ^ 10 % 2 ^ 5 ≤ 30) :
    (f16dec h).toNat =
      h.toNat / 2 ^ 15 * 2 ^ 31 + ((h.toNat / 2 ^ 10 % 2 ^ 5 + 112) * 2 ^ 23 + h.toNat % 2 ^ 10 * 2 ^ 13) := by
  rw [f16dec_toNat, if_neg (by omega), if_neg (by omega), if_neg (by omega)]

theorem f16dec_toNat_of_subnormal {p : Nat} (he : h.toNat / 2 ^ 10 % 2 ^ 5 = 0) (hlo : 2 ^ p ≤ h.toNat % 2 ^ 10)
    (hhi : h.toNat % 2 ^ 10 < 2 ^ (p + 1)) :
    (f16dec h).toNat = h.toNat / 2 ^ 15 * 2 ^ 31 + ((103 + p) * 2 ^ 23 +
      (h.toNat % 2 ^ 10 * 2 ^ (10 - p) - 2 ^ 10) * 2 ^ 13) := by
  have hpos := Nat.two_pow_pos p
  have hp : p < 10 := (Nat.pow_lt_pow_iff_right (by decide : 1 < 2)).1 (hlo.trans_lt (Nat.mod_lt _ (by decide)))
  have hm : (BitVec.ofNat 16 (h.toNat % 2 ^ 10)).toNat = h.toNat % 2 ^ 10 := by
    rw [BitVec.toNat_ofNat]
    omega
  have hlz := clz16_of_toNat (hm.symm ▸ hlo) (hm.symm ▸ hhi)
  rw [f16dec_toNat, if_neg (by omega), if_neg (by omega), if_pos he, hlz]
  obtain ⟨hge, hlt⟩ := normalized_bounds hp.le hlo hhi
  rw [show 15 - p - 5 = 10 - p by omega, Nat.mod_eq_sub_mod hge, Nat.mod_eq_of_lt (by omega)]
  omega

end

/-! ## Rounding by the highest bit dropped (R84, R86, R88) -/

/-- `X` without its low `k + 1` bits, the highest of them added. -/
def roundBelow (X k : Nat) : Nat := X / 2 ^ (k + 1) + X / 2 ^ k % 2

/-- The rounded number times its unit is off by at most half a unit, and never half a unit below. -/
theorem roundBelow_bounds (X k : Nat) :
    roundBelow X k * 2 ^ (k + 1) ≤ X + 2 ^ k ∧ X < roundBelow X k * 2 ^ (k + 1) + 2 ^ k := by
  have hX := Nat.div_add_mod X (2 ^ k)
  have hlt := Nat.mod_lt X (Nat.two_pow_pos k)
  have hround : roundBelow X k * 2 ^ (k + 1) = 2 ^ k * (X / 2 ^ k) + X / 2 ^ k % 2 * 2 ^ k := by
    rw [roundBelow, pow_succ, ← Nat.div_div_eq_div_mul]
    linear_combination 2 ^ k * Nat.div_add_mod (X / 2 ^ k) 2
  rw [hround]
  rcases Nat.mod_two_eq_zero_or_one (X / 2 ^ k) with hbit | hbit
  · rw [hbit]
    omega
  · rw [hbit]
    omega

/-- Rounding never passes a multiple of the unit, neither upward nor downward. -/
theorem roundBelow_le {X k c : Nat} (h : X ≤ c * 2 ^ (k + 1)) : roundBelow X k ≤ c := by
  have hunit : 2 ^ k < 2 ^ (k + 1) := Nat.pow_lt_pow_right (by decide) k.lt_succ_self
  obtain ⟨hbound, -⟩ := roundBelow_bounds X k
  exact Nat.le_of_lt_succ (Nat.lt_of_mul_lt_mul_right (a := 2 ^ (k + 1)) (by rw [Nat.succ_mul]; omega))

theorem le_roundBelow {X k c : Nat} (h : c * 2 ^ (k + 1) ≤ X) : c ≤ roundBelow X k := by
  have hunit : 2 ^ k < 2 ^ (k + 1) := Nat.pow_lt_pow_right (by decide) k.lt_succ_self
  obtain ⟨-, hbound⟩ := roundBelow_bounds X k
  exact Nat.le_of_lt_succ (Nat.lt_of_mul_lt_mul_right (a := 2 ^ (k + 1)) (by rw [Nat.succ_mul]; omega))

/-- Whole units stay out of the rounding. -/
theorem roundBelow_mul_add (a X k : Nat) : roundBelow (a * 2 ^ (k + 1) + X) k = a + roundBelow X k := by
  have hpos := Nat.two_pow_pos k
  have hhigh : (a * 2 ^ (k + 1) + X) / 2 ^ (k + 1) = a + X / 2 ^ (k + 1) := by
    rw [mul_comm, Nat.mul_add_div (Nat.two_pow_pos _)]
  have hbit : (a * 2 ^ (k + 1) + X) / 2 ^ k = a * 2 + X / 2 ^ k := by
    rw [pow_succ, mul_comm (2 ^ k), ← mul_assoc, mul_comm, Nat.mul_add_div hpos]
  rw [roundBelow, roundBelow, hhigh, hbit]
  omega

theorem roundBelow_mul (a k : Nat) : roundBelow (a * 2 ^ (k + 1)) k = a := by
  simpa [roundBelow] using roundBelow_mul_add a 0 k

/-! ## F16ENC (R84) -/

/-- A half pattern put together from its sign and the bits below. -/
theorem toNat_signed_half {s q : Nat} (hs : s < 2) (hq : q < 2 ^ 15) :
    (BitVec.ofNat 16 (s <<< 15 ||| q)).toNat = s * 2 ^ 15 + q := by
  rw [← Nat.shiftLeft_add_eq_or_of_lt hq, Nat.shiftLeft_eq, BitVec.toNat_ofNat, Nat.mod_eq_of_lt (by omega)]

/-- The model's rounding by shifts. -/
theorem shiftRight_add_bit (X k : Nat) : X >>> (k + 1) + ((X >>> k) &&& 1) = roundBelow X k := by
  rw [Nat.shiftRight_eq_div_pow, Nat.shiftRight_eq_div_pow, Nat.and_one_is_mod, roundBelow]

section
variable {x : Word}

theorem f16enc_of_nan (hB : expField x = 255) (hM : manField x ≠ 0) : f16enc x = 0x7FFF := by
  unfold f16enc
  rw [if_pos (by omega), if_pos ⟨hB, hM⟩]

theorem f16enc_toNat_of_overflow (hB : 143 ≤ expField x) (hnum : ¬(expField x = 255 ∧ manField x ≠ 0)) :
    (f16enc x).toNat = signBit x * 2 ^ 15 + 0x7C00 := by
  unfold f16enc
  rw [if_pos (by omega), if_neg hnum, toNat_signed_half (signBit_lt x) (by decide)]

theorem f16enc_toNat_of_underflow (hB : expField x < 102) : (f16enc x).toNat = signBit x * 2 ^ 15 := by
  have hs := signBit_lt x
  unfold f16enc
  rw [if_neg (by omega), if_pos (by omega), Nat.shiftLeft_eq, BitVec.toNat_ofNat, Nat.mod_eq_of_lt (by omega)]

theorem f16enc_toNat_of_subnormal {k : Nat} (hk : expField x + k = 125) (hk' : 12 < k) (hk'' : k < 24) :
    (f16enc x).toNat = signBit x * 2 ^ 15 + roundBelow (2 ^ 23 + manField x) k := by
  have hM : manField x < 2 ^ 23 := BitVec.isLt _
  have hX : 0x800000 ||| manField x = 2 ^ 23 + manField x := (Nat.two_pow_add_eq_or_of_lt hM 1).symm
  have hq : roundBelow (2 ^ 23 + manField x) k ≤ 2 ^ 10 := by
    have hpow : 2 ^ 14 ≤ 2 ^ (k + 1) := Nat.pow_le_pow_right two_pos (by omega)
    exact roundBelow_le (by omega)
  have hshift : (13 + (-14 - ((expField x : Int) - 127))).toNat = k + 1 := by omega
  unfold f16enc
  dsimp only
  rw [if_neg (by omega), if_neg (by omega), if_pos (by omega), hX, hshift, Nat.add_sub_cancel,
    shiftRight_add_bit, toNat_signed_half (signBit_lt x) (by omega)]

theorem f16enc_toNat_of_normal (hB : 113 ≤ expField x) (hB' : expField x < 143) :
    (f16enc x).toNat = signBit x * 2 ^ 15 + ((expField x - 112) * 2 ^ 10 + roundBelow (manField x) 12) := by
  have hM : manField x < 2 ^ 23 := BitVec.isLt _
  have hq : roundBelow (manField x) 12 ≤ 2 ^ 10 := roundBelow_le (by omega)
  have hexp : ((expField x : Int) - 127 + 15).toNat = expField x - 112 := by omega
  unfold f16enc
  dsimp only
  rw [if_neg (by omega), if_neg (by omega), if_neg (by omega), add_assoc, shiftRight_add_bit, hexp,
    Nat.shiftLeft_eq (expField x - 112), toNat_signed_half (signBit_lt x) (by omega)]

end

/-! ## BFloat (R85 to R88) -/

/-- A wire integer moved to the top of a word. -/
theorem toNat_setWidth_shiftLeft {n k : Nat} (hnk : n + k = 32) (v : BitVec n) :
    (v.setWidth 32 <<< k).toNat = v.toNat * 2 ^ k := by
  have hlt : v.toNat * 2 ^ k < 2 ^ 32 := by
    rw [← hnk, pow_add]
    exact Nat.mul_lt_mul_of_pos_right v.isLt (Nat.two_pow_pos k)
  rw [BitVec.toNat_shiftLeft, Nat.shiftLeft_eq, BitVec.toNat_setWidth_of_le (by omega), Nat.mod_eq_of_lt hlt]

theorem bf16dec_toNat (h : BitVec 16) : (bf16dec h).toNat = h.toNat * 2 ^ 16 := toNat_setWidth_shiftLeft rfl h

theorem bf24dec_toNat (h : BitVec 24) : (bf24dec h).toNat = h.toNat * 2 ^ 8 := toNat_setWidth_shiftLeft rfl h

/-- The top bits of a word, the highest bit dropped added. -/
theorem toNat_extractLsb'_add_bit {n : Nat} (hn : 1 ≤ n) (k : Nat) (a : Word) :
    (a.extractLsb' (k + 1) n + (a.extractLsb' k 1).setWidth n).toNat = roundBelow a.toNat k % 2 ^ n := by
  rw [BitVec.toNat_add, BitVec.toNat_setWidth_of_le hn, BitVec.extractLsb'_toNat, BitVec.extractLsb'_toNat,
    Nat.shiftRight_eq_div_pow, Nat.shiftRight_eq_div_pow, Nat.mod_add_mod, roundBelow, pow_one]

theorem bf16enc_toNat (a : Word) : (bf16enc a).toNat = roundBelow a.toNat 15 % 2 ^ 16 :=
  toNat_extractLsb'_add_bit (by decide) 15 a

theorem bf24enc_toNat (a : Word) : (bf24enc a).toNat = roundBelow a.toNat 7 % 2 ^ 24 :=
  toNat_extractLsb'_add_bit (by decide) 7 a

theorem zext32_toNat {n : Nat} (hn : n ≤ 32) (v : BitVec n) : (zext32 v).toNat = v.toNat :=
  BitVec.toNat_setWidth_of_le hn

/-! ## The operations -/

theorem exec_f32dec (a : Word) (s : State) : exec (.f32dec a) s = .next { s with rsp := some ⟨.ok, a⟩ } := rfl

theorem exec_f32enc (a : Word) (s : State) : exec (.f32enc a) s = .next { s with rsp := some ⟨.ok, a⟩ } := rfl

theorem exec_f16dec (h : BitVec 16) (s : State) :
    exec (.f16dec h) s = .next { s with rsp := some ⟨.ok, f16dec h⟩ } := rfl

theorem exec_f16enc (x : Word) (s : State) :
    exec (.f16enc x) s = .next { s with rsp := some ⟨.ok, zext32 (f16enc x)⟩ } := rfl

theorem exec_bf16dec (h : BitVec 16) (s : State) :
    exec (.bf16dec h) s = .next { s with rsp := some ⟨.ok, bf16dec h⟩ } := rfl

theorem exec_bf16enc (x : Word) (s : State) :
    exec (.bf16enc x) s = .next { s with rsp := some ⟨.ok, zext32 (bf16enc x)⟩ } := rfl

theorem exec_bf24dec (h : BitVec 24) (s : State) :
    exec (.bf24dec h) s = .next { s with rsp := some ⟨.ok, bf24dec h⟩ } := rfl

theorem exec_bf24enc (x : Word) (s : State) :
    exec (.bf24enc x) s = .next { s with rsp := some ⟨.ok, zext32 (bf24enc x)⟩ } := rfl

/-- The wire integer of an operand is its low bits. -/
theorem toNat_wire (a : Word) (n : Nat) : (a.extractLsb' 0 n).toNat = a.toNat % 2 ^ n := by
  rw [BitVec.extractLsb'_toNat, Nat.shiftRight_zero]

/-- Settles O21: the rows read the whole operand, and both meanings answer it. -/
theorem float32IsTheIdentity : Obligations.Float32IsTheIdentity := fun s off a =>
  ⟨decode_reqWord 0x30 off a, exec_f32dec a s, decode_reqWord 0x40 off a, exec_f32enc a s⟩

/-- Settles O27: the low bits of the operand, moved to the top. -/
theorem bFloatDecode : Obligations.BFloatDecode := fun s off a =>
  ⟨decode_reqWord 0x32 off a, ⟨_, exec_bf16dec _ s, by rw [bf16dec_toNat, toNat_wire]⟩,
    decode_reqWord 0x33 off a, ⟨_, exec_bf24dec _ s, by rw [bf24dec_toNat, toNat_wire]⟩⟩

/-- Settles O28: both encoders round below the retained bits. -/
theorem bFloatEncode : Obligations.BFloatEncode := fun s off a =>
  ⟨decode_reqWord 0x42 off a, ⟨_, exec_bf16enc a s, (zext32_toNat (by omega) _).trans (bf16enc_toNat a)⟩,
    decode_reqWord 0x43 off a, ⟨_, exec_bf24enc a s, (zext32_toNat (by omega) _).trans (bf24enc_toNat a)⟩⟩

/-- Settles O22: the fields of the operand's low half are those of `h`, so each case is one of F16DEC's equations. -/
theorem float16Decode : Obligations.Float16Decode := by
  intro s off a h sign e m
  have hh : h.toNat = a.toNat % 2 ^ 16 := toNat_wire a 16
  have hsign : h.toNat / 2 ^ 15 = sign := by omega
  have hexp : h.toNat / 2 ^ 10 % 2 ^ 5 = e := by omega
  have hman : h.toNat % 2 ^ 10 = m := by omega
  refine ⟨decode_reqWord 0x31 off a, _, exec_f16dec h s, fun he => ?_, fun he hm => ?_, fun p he hlo hhi => ?_,
    fun he he' => ?_⟩
  · rw [f16dec_toNat_of_nonfinite (hexp.trans he), hsign, hman, add_assoc]
  · rw [f16dec_toNat_of_zero (hexp.trans he) (hman.trans hm), hsign]
  · rw [← hman] at hlo hhi
    rw [f16dec_toNat_of_subnormal (hexp.trans he) hlo hhi, hsign, hman, add_assoc]
  · rw [← hexp] at he he'
    rw [f16dec_toNat_of_normal he he', hsign, hexp, hman, add_assoc]

/-- Settles O24: each branch is one of F16ENC's equations, with the rounding written out. -/
theorem float16Encode : Obligations.Float16Encode := by
  intro s off a sign B M X
  have hsign : signBit a = sign := signBit_eq a
  have hexp : expField a = B := expField_eq a
  have hman : manField a = M := manField_eq a
  have hr : (zext32 (f16enc a)).toNat = (f16enc a).toNat := zext32_toNat (by omega) _
  refine ⟨decode_reqWord 0x41 off a, _, exec_f16enc a s, fun hB hM => ?_, fun hB hM => ?_, fun hB => ?_,
    fun hB hB' => ?_, fun hB hB' => ?_⟩
  · rw [f16enc_of_nan (hexp.trans hB) (hman ▸ hM)]
    rfl
  · rw [hr, f16enc_toNat_of_overflow (hexp ▸ hB) (by rw [hexp, hman]; exact fun h => h.2 (hM h.1)), hsign]
  · rw [hr, f16enc_toNat_of_underflow (hexp ▸ hB), hsign]
  · have hk : 126 - B = 125 - B + 1 := by omega
    rw [hr, f16enc_toNat_of_subnormal (k := 125 - B) (by omega) (by omega) (by omega), hsign, hman, roundBelow, hk]
  · rw [hr, f16enc_toNat_of_normal (hexp ▸ hB) (hexp ▸ hB'), hsign, hexp, hman, roundBelow,
      ← add_assoc ((B - 112) * _)]

/-! ## Encoding what was decoded (R90) -/

/-- The fields of a pattern are the digits of its number. -/
theorem fields_of_toNat {x : Word} {s e m : Nat} (h : x.toNat = s * 2 ^ 31 + (e * 2 ^ 23 + m)) (he : e < 2 ^ 8)
    (hm : m < 2 ^ 23) : signBit x = s ∧ expField x = e ∧ manField x = m := by
  rw [signBit_eq, expField_eq, manField_eq]
  omega

section
variable {h : BitVec 16}

theorem f16dec_fields_of_zero (he : h.toNat / 2 ^ 10 % 2 ^ 5 = 0) (hm : h.toNat % 2 ^ 10 = 0) :
    signBit (f16dec h) = h.toNat / 2 ^ 15 ∧ expField (f16dec h) = 0 ∧ manField (f16dec h) = 0 := by
  refine fields_of_toNat ?_ (by decide) (by decide)
  rw [f16dec_toNat_of_zero he hm, zero_mul, add_zero, add_zero]

theorem f16dec_fields_of_normal (he : 1 ≤ h.toNat / 2 ^ 10 % 2 ^ 5) (he' : h.toNat / 2 ^ 10 % 2 ^ 5 ≤ 30) :
    signBit (f16dec h) = h.toNat / 2 ^ 15 ∧ expField (f16dec h) = h.toNat / 2 ^ 10 % 2 ^ 5 + 112 ∧
      manField (f16dec h) = h.toNat % 2 ^ 10 * 2 ^ 13 :=
  fields_of_toNat (f16dec_toNat_of_normal he he') (by omega) (by omega)

/-- A subnormal is renormalized: its significand is the mantissa moved up. -/
theorem f16dec_fields_of_subnormal (he : h.toNat / 2 ^ 10 % 2 ^ 5 = 0) (hm : h.toNat % 2 ^ 10 ≠ 0) :
    ∃ p < 10, signBit (f16dec h) = h.toNat / 2 ^ 15 ∧ expField (f16dec h) = 103 + p ∧
      2 ^ 23 + manField (f16dec h) = h.toNat % 2 ^ 10 * 2 ^ (23 - p) := by
  obtain ⟨p, hlo, hhi⟩ : ∃ p, 2 ^ p ≤ h.toNat % 2 ^ 10 ∧ h.toNat % 2 ^ 10 < 2 ^ (p + 1) :=
    ⟨_, Nat.pow_log_le_self 2 hm, Nat.lt_pow_succ_log_self (by decide) _⟩
  have hp : p < 10 := (Nat.pow_lt_pow_iff_right (by decide : 1 < 2)).1 (hlo.trans_lt (Nat.mod_lt _ (by decide)))
  obtain ⟨hge, hlt⟩ := normalized_bounds hp.le hlo hhi
  obtain ⟨hs, hB, hM⟩ := fields_of_toNat (f16dec_toNat_of_subnormal he hlo hhi) (by omega) (by omega)
  have hshift : 23 - p = 10 - p + 13 := by omega
  refine ⟨p, hp, hs, hB, ?_⟩
  rw [hM, hshift, pow_add, ← mul_assoc]
  omega

end

/-- R90: encoding takes back what decoding did; of a NaN it makes the one NaN it has. -/
theorem f16enc_f16dec (h : BitVec 16) :
    f16enc (f16dec h) = if h.toNat / 2 ^ 10 % 2 ^ 5 = 31 ∧ h.toNat % 2 ^ 10 ≠ 0 then 0x7FFF else h := by
  have hlt := h.isLt
  by_cases hnonfinite : h.toNat / 2 ^ 10 % 2 ^ 5 = 31
  · obtain ⟨hs, hB, hM⟩ := fields_of_toNat (f16dec_toNat_of_nonfinite hnonfinite) (by omega) (by omega)
    split_ifs with hnan
    · exact f16enc_of_nan hB (by omega)
    · apply BitVec.eq_of_toNat_eq
      rw [f16enc_toNat_of_overflow (by omega) (by omega), hs]
      omega
  rw [if_neg (hnonfinite ·.1)]
  apply BitVec.eq_of_toNat_eq
  by_cases hnormal : 1 ≤ h.toNat / 2 ^ 10 % 2 ^ 5
  · obtain ⟨hs, hB, hM⟩ := f16dec_fields_of_normal hnormal (by omega)
    rw [f16enc_toNat_of_normal (by omega) (by omega), hs, hB, hM, roundBelow_mul]
    omega
  have hexp : h.toNat / 2 ^ 10 % 2 ^ 5 = 0 := by omega
  by_cases hzero : h.toNat % 2 ^ 10 = 0
  · obtain ⟨hs, hB, -⟩ := f16dec_fields_of_zero hexp hzero
    rw [f16enc_toNat_of_underflow (by omega), hs]
    omega
  · obtain ⟨p, hp, hs, hB, hM⟩ := f16dec_fields_of_subnormal hexp hzero
    have hk : 23 - p = 22 - p + 1 := by omega
    rw [f16enc_toNat_of_subnormal (k := 22 - p) (by omega) (by omega) (by omega), hs, hM, hk, roundBelow_mul]
    omega

/-- Settles O26: the encoder gives back the pattern, zero-extended. -/
theorem float16RoundTrip : Obligations.Float16RoundTrip := by
  intro s h
  refine ⟨_, exec_f16dec h s, ?_⟩
  rw [exec_f16enc, f16enc_f16dec]
  split_ifs <;> rfl

/-! ## Values (R80, R84, R91)

The bits below the sign, read as one number, take values that rise through the binades without a jump: in a binade and at
its upper end the value is the significand times the binade's unit. So a rounding that carries into the exponent needs
no case of its own. -/

/-- The value of the bits `n` below the sign of a binary format: `p` mantissa bits, and `c` the exponent field at which the
mantissa's last bit is worth one. -/
def magnitude (p : Nat) (c : ℤ) (n : Nat) : ℚ :=
  if n / 2 ^ p = 0 then (n % 2 ^ p : ℕ) * 2 ^ (1 - c) else (2 ^ p + n % 2 ^ p : ℕ) * 2 ^ ((n / 2 ^ p : ℕ) - c)

theorem magnitude_nonneg (p : Nat) (c : ℤ) (n : Nat) : 0 ≤ magnitude p c n := by
  unfold magnitude
  split_ifs <;> positivity

theorem magnitude_fields {p e m : Nat} (hm : m < 2 ^ p) (c : ℤ) :
    magnitude p c (e * 2 ^ p + m) =
      if e = 0 then (m : ℚ) * 2 ^ (1 - c) else (2 ^ p + m : ℕ) * 2 ^ ((e : ℤ) - c) := by
  have hdiv : (e * 2 ^ p + m) / 2 ^ p = e := by
    rw [mul_comm, Nat.mul_add_div (Nat.two_pow_pos p), Nat.div_eq_of_lt hm, add_zero]
  have hmod : (e * 2 ^ p + m) % 2 ^ p = m := by rw [mul_comm, Nat.mul_add_mod, Nat.mod_eq_of_lt hm]
  rw [magnitude, hdiv, hmod]

/-- The upper end of a binade has, as the lower end of the next, half the significand and twice the unit. -/
theorem magnitude_binade {p i q : Nat} (hlo : i = 0 ∨ 2 ^ p ≤ q) (hhi : q ≤ 2 * 2 ^ p) (c : ℤ) :
    magnitude p c (i * 2 ^ p + q) = q * 2 ^ ((i : ℤ) + 1 - c) := by
  by_cases hsub : q < 2 ^ p
  · obtain rfl : i = 0 := by omega
    rw [magnitude_fields hsub, if_pos rfl, Nat.cast_zero, zero_add]
  obtain ⟨m, rfl⟩ := Nat.exists_eq_add_of_le (Nat.not_lt.1 hsub)
  rcases Nat.lt_or_eq_of_le hhi with hlt | heq
  · have hn : i * 2 ^ p + (2 ^ p + m) = (i + 1) * 2 ^ p + m := by ring
    rw [hn, magnitude_fields (by omega), if_neg (by omega)]
    push_cast
    rfl
  · obtain rfl : m = 2 ^ p := by omega
    have hn : i * 2 ^ p + (2 ^ p + 2 ^ p) = (i + 2) * 2 ^ p + 0 := by ring
    have hexp : ((i + 2 : ℕ) : ℤ) - c = (i : ℤ) + 1 - c + 1 := by push_cast; ring
    rw [hn, magnitude_fields (Nat.two_pow_pos p), if_neg (by omega), hexp, zpow_add_one₀ two_ne_zero]
    push_cast
    ring

theorem neg_one_pow_sign {s : Nat} (hs : s < 2) : (-1 : ℚ) ^ s = if s = 1 then -1 else 1 := by
  interval_cases s <;> simp

/-- The value of a pattern (93 GK1), its sign a factor. -/
theorem val_fields (x : Word) : val x = (-1) ^ signBit x *
    if expField x = 0 then (manField x : ℚ) * 2 ^ (-149 : ℤ)
    else (2 ^ 23 + manField x : ℕ) * 2 ^ ((expField x : ℤ) - 150) := by
  rw [val, neg_one_pow_sign (signBit_lt x), ite_mul, neg_one_mul, one_mul]

theorem val_eq_magnitude (x : Word) : val x = (-1) ^ signBit x * magnitude 23 150 (x.toNat % 2 ^ 31) := by
  have hn : x.toNat % 2 ^ 31 = expField x * 2 ^ 23 + manField x := by
    rw [expField_eq, manField_eq]
    omega
  have hM : manField x < 2 ^ 23 := BitVec.isLt _
  rw [hn, magnitude_fields hM, val_fields]
  norm_num

theorem val_of_binade {x : Word} {i X : Nat} (hn : x.toNat % 2 ^ 31 = i * 2 ^ 23 + X) (hlo : i = 0 ∨ 2 ^ 23 ≤ X)
    (hhi : X ≤ 2 * 2 ^ 23) : val x = (-1) ^ signBit x * (X * 2 ^ ((i : ℤ) + 1 - 150)) := by
  rw [val_eq_magnitude, hn, magnitude_binade hlo hhi]

/-- Every pattern lies in the binade of its exponent field; subnormals share the lowest one. -/
theorem exists_binade (x : Word) : ∃ i X, x.toNat % 2 ^ 31 = i * 2 ^ 23 + X ∧ (i = 0 ∨ 2 ^ 23 ≤ X) ∧
    X < 2 * 2 ^ 23 ∧ max (expField x) 1 = i + 1 := by
  have hB := expField_eq x
  exact ⟨expField x - 1, x.toNat % 2 ^ 31 - (expField x - 1) * 2 ^ 23, by omega, by omega, by omega, by omega⟩

theorem abs_signed (s : Nat) {a : ℚ} (ha : 0 ≤ a) : |(-1) ^ s * a| = a := by
  rw [abs_mul, abs_neg_one_pow, one_mul, abs_of_nonneg ha]

theorem abs_sub_signed (s : Nat) (a b : ℚ) : |(-1) ^ s * a - (-1) ^ s * b| = |a - b| := by
  rw [← mul_sub, abs_mul, abs_neg_one_pow, one_mul]

/-- Rounding is off by at most half a unit, and by exactly half only upward. -/
theorem rounding_error (X k : Nat) {u : ℚ} (hu : 0 < u) :
    |(roundBelow X k * 2 ^ (k + 1) * u : ℚ) - X * u| ≤ 2 ^ k * u ∧
      (|(roundBelow X k * 2 ^ (k + 1) * u : ℚ) - X * u| = 2 ^ k * u → X * u < roundBelow X k * 2 ^ (k + 1) * u) := by
  have hlo : (roundBelow X k * 2 ^ (k + 1) : ℚ) ≤ X + 2 ^ k := mod_cast (roundBelow_bounds X k).1
  have hhi : (X : ℚ) < roundBelow X k * 2 ^ (k + 1) + 2 ^ k := mod_cast (roundBelow_bounds X k).2
  generalize (roundBelow X k * 2 ^ (k + 1) : ℚ) = q at *
  rw [← sub_mul, abs_mul, abs_of_pos hu]
  refine ⟨mul_le_mul_of_nonneg_right (abs_le.2 ⟨by linarith, by linarith⟩) hu.le, fun htie => ?_⟩
  have hpow : (0 : ℚ) < 2 ^ k := by positivity
  rcases (abs_eq hpow.le).1 (mul_right_cancel₀ hu.ne' htie) with hup | hdown
  · exact mul_lt_mul_of_pos_right (by linarith) hu
  · linarith

/-! ### F16DEC is exact (R83) -/

theorem cast_mul_two_pow_mul_zpow (a k : Nat) (z : ℤ) : ((a * 2 ^ k : ℕ) : ℚ) * 2 ^ z = a * 2 ^ (z + k) := by
  rw [zpow_add₀ two_ne_zero, zpow_natCast]
  push_cast
  ring

/-- F16DEC keeps the value of every finite half pattern. -/
theorem val_f16dec {h : BitVec 16} (hfin : h.toNat / 2 ^ 10 % 2 ^ 5 < 31) :
    expField (f16dec h) ≠ 255 ∧ val (f16dec h) = (-1) ^ (h.toNat / 2 ^ 15) * magnitude 10 25 (h.toNat % 2 ^ 15) := by
  have hn : h.toNat % 2 ^ 15 = h.toNat / 2 ^ 10 % 2 ^ 5 * 2 ^ 10 + h.toNat % 2 ^ 10 := by omega
  rw [hn, magnitude_fields (Nat.mod_lt _ (by decide)), val_fields]
  by_cases hnormal : 1 ≤ h.toNat / 2 ^ 10 % 2 ^ 5
  · obtain ⟨hs, hB, hM⟩ := f16dec_fields_of_normal hnormal (by omega)
    have hX : 2 ^ 23 + h.toNat % 2 ^ 10 * 2 ^ 13 = (2 ^ 10 + h.toNat % 2 ^ 10) * 2 ^ 13 := by ring
    refine ⟨by omega, ?_⟩
    rw [if_neg (by omega), if_neg (by omega), hs, hM, hX, cast_mul_two_pow_mul_zpow, hB]
    congr 3
    push_cast
    ring
  have hexp : h.toNat / 2 ^ 10 % 2 ^ 5 = 0 := by omega
  by_cases hzero : h.toNat % 2 ^ 10 = 0
  · obtain ⟨hs, hB, hM⟩ := f16dec_fields_of_zero hexp hzero
    refine ⟨by omega, ?_⟩
    rw [if_pos hB, if_pos hexp, hs, hM, hzero, Nat.cast_zero, zero_mul, zero_mul]
  · obtain ⟨p, hp, hs, hB, hM⟩ := f16dec_fields_of_subnormal hexp hzero
    refine ⟨by omega, ?_⟩
    rw [if_neg (by omega), if_pos hexp, hs, hM, cast_mul_two_pow_mul_zpow, hB]
    congr 3
    omega

/-- Settles O23: the value F16DEC keeps, by the fields of the half pattern. -/
theorem float16DecodeIsExact : Obligations.Float16DecodeIsExact := by
  intro s h sign e m hfin
  have hlt := h.isLt
  obtain ⟨hB, hval⟩ := val_f16dec hfin
  have hn : h.toNat % 2 ^ 15 = e * 2 ^ 10 + m := by omega
  refine ⟨_, exec_f16dec h s, hB, ?_⟩
  rw [hval, neg_one_pow_sign (by omega), hn, magnitude_fields (Nat.mod_lt _ (by decide))]
  rfl

/-! ### F16ENC rounds to nearest (R84)

A pattern of binade `i` with significand `X` rounds below bit `k` of `X` into binade `j` of the half patterns. -/

section
variable {x : Word} {i j k X : Nat}

/-- The branches of R84 below the overflow, as one. -/
theorem f16enc_toNat_of_binade (hj : j = i - 112) (hk : k = 12 + (112 - i)) (hn : x.toNat % 2 ^ 31 = i * 2 ^ 23 + X)
    (hi : i < 142) (hlo : i = 0 ∨ 2 ^ 23 ≤ X) (hhi : X < 2 * 2 ^ 23) :
    (f16enc x).toNat = signBit x * 2 ^ 15 + (j * 2 ^ 10 + roundBelow X k) := by
  have hB := expField_eq x
  have hM := manField_eq x
  by_cases hsmall : expField x < 102
  · have hpow : 2 ^ 24 ≤ 2 ^ k := Nat.pow_le_pow_right two_pos (by omega)
    have hround : roundBelow X k = 0 := by
      rw [roundBelow, pow_succ, Nat.div_eq_of_lt (by omega), Nat.div_eq_of_lt (by omega)]
    rw [f16enc_toNat_of_underflow hsmall, hround]
    omega
  have hX : X = 2 ^ 23 + manField x := by omega
  by_cases hsub : expField x < 113
  · rw [f16enc_toNat_of_subnormal (k := k) (by omega) (by omega) (by omega), hX]
    omega
  · obtain rfl : k = 12 := by omega
    have hX' : X = 2 ^ 10 * 2 ^ (12 + 1) + manField x := by omega
    rw [f16enc_toNat_of_normal (by omega) (by omega), hX', roundBelow_mul_add]
    omega

/-- Below 65520 nothing rounds up to the infinity's exponent field. -/
theorem f16_finite_of_lt (hj : j = i - 112) (hk : k = 12 + (112 - i)) (hlo : i = 0 ∨ 2 ^ 23 ≤ X)
    (hhi : X < 2 * 2 ^ 23) (hval : (X : ℚ) * 2 ^ ((i : ℤ) + 1 - 150) < 65520) :
    i < 142 ∧ j * 2 ^ 10 + roundBelow X k < 31 * 2 ^ 10 := by
  have hbound {c : Nat} (hc : c ≤ i) : (X : ℚ) * 2 ^ ((c : ℤ) + 1 - 150) < 65520 :=
    (mul_le_mul_of_nonneg_left (zpow_le_zpow_right₀ one_le_two (by omega)) X.cast_nonneg).trans_lt hval
  have hi : i < 142 := by
    by_contra hge
    have hX : (2 ^ 23 : ℚ) ≤ X := by exact_mod_cast hlo.resolve_left (by omega)
    have := hbound (c := 142) (by omega)
    norm_num at this
    linarith
  refine ⟨hi, ?_⟩
  by_cases htop : i = 141
  · have hX : (X : ℚ) < 65520 * 256 := by
      have := hbound (c := 141) (by omega)
      norm_num at this
      linarith
    have hX' : X < 65520 * 256 := by exact_mod_cast hX
    obtain rfl : k = 12 := by omega
    rw [roundBelow]
    omega
  · have hpow : 2 ^ 13 ≤ 2 ^ (k + 1) := Nat.pow_le_pow_right two_pos (by omega)
    have hround : roundBelow X k ≤ 2 ^ 11 := roundBelow_le (by omega)
    omega

/-- The value that F16ENC rounds to, in the unit of the pattern it rounds. -/
theorem val_f16dec_f16enc (hj : j = i - 112) (hk : k = 12 + (112 - i)) (hn : x.toNat % 2 ^ 31 = i * 2 ^ 23 + X)
    (hi : i < 142) (hlo : i = 0 ∨ 2 ^ 23 ≤ X) (hhi : X < 2 * 2 ^ 23)
    (hfinite : j * 2 ^ 10 + roundBelow X k < 31 * 2 ^ 10) :
    expField (f16dec (f16enc x)) ≠ 255 ∧ val (f16dec (f16enc x)) =
      (-1) ^ signBit x * (roundBelow X k * 2 ^ (k + 1) * 2 ^ ((i : ℤ) + 1 - 150)) := by
  have henc := f16enc_toNat_of_binade hj hk hn hi hlo hhi
  have hsign : (f16enc x).toNat / 2 ^ 15 = signBit x := by omega
  have hmag : (f16enc x).toNat % 2 ^ 15 = j * 2 ^ 10 + roundBelow X k := by omega
  obtain ⟨hB, hval⟩ := val_f16dec (h := f16enc x) (by omega)
  have hpow : 2 ^ 13 ≤ 2 ^ (k + 1) := Nat.pow_le_pow_right two_pos (by omega)
  have hround : j = 0 ∨ 2 ^ 10 ≤ roundBelow X k := by
    by_cases hsub : i ≤ 112
    · exact .inl (by omega)
    · obtain rfl : k = 12 := by omega
      exact .inr (le_roundBelow (by omega))
  refine ⟨hB, ?_⟩
  rw [hval, hsign, hmag, magnitude_binade hround (roundBelow_le (by omega)), mul_assoc (roundBelow X k : ℚ),
    ← zpow_natCast (2 : ℚ), ← zpow_add₀ two_ne_zero]
  congr 3
  omega

end

/-- Settles O25: both values are multiples of the pattern's unit, and the half unit of the result's grid is `2 ^ k` of
them. -/
theorem float16EncodeRoundsToNearest : Obligations.Float16EncodeRoundsToNearest := by
  intro s x _ hlt
  have hlow : (zext32 (f16enc x)).extractLsb' 0 16 = f16enc x := extractLsb'_setWidth_word (by omega) _
  obtain ⟨i, X, hn, hlo, hhi, hB⟩ := exists_binade x
  obtain ⟨j, hj⟩ : ∃ j, j = i - 112 := ⟨_, rfl⟩
  obtain ⟨k, hk⟩ : ∃ k, k = 12 + (112 - i) := ⟨_, rfl⟩
  have hx := val_of_binade hn hlo hhi.le
  rw [hx, abs_signed _ (by positivity)] at hlt
  obtain ⟨hi, hfinite⟩ := f16_finite_of_lt hj hk hlo hhi hlt
  obtain ⟨hBr, hr⟩ := val_f16dec_f16enc hj hk hn hi hlo hhi hfinite
  have hhalf : (if expField x < 113 then 2 ^ (-25 : ℤ) else 2 ^ ((expField x : ℤ) - 138) : ℚ) =
      2 ^ k * 2 ^ ((i : ℤ) + 1 - 150) := by
    rw [← zpow_natCast, ← zpow_add₀ two_ne_zero]
    split_ifs <;> congr 1 <;> omega
  refine ⟨_, _, exec_f16enc x s, exec_f16dec _ s, ?_⟩
  rw [hlow]
  refine ⟨hBr, ?_⟩
  rw [hhalf, hr, hx, abs_sub_signed, abs_signed _ (by positivity), abs_signed _ (by positivity)]
  exact rounding_error X k (by positivity)

/-! ### BFloat encoding (R91) -/

/-- Rounding a whole pattern below bit `k` rounds the significand in its binade; the sign and the exponent stand on whole
units. -/
theorem roundBelow_pattern {x : Word} {i k X : Nat} (hk : k < 23) (hn : x.toNat % 2 ^ 31 = i * 2 ^ 23 + X) :
    roundBelow x.toNat k * 2 ^ (k + 1) = signBit x * 2 ^ 31 + (i * 2 ^ 23 + roundBelow X k * 2 ^ (k + 1)) := by
  have hsign := signBit_eq x
  have hunit : 2 ^ (22 - k) * 2 ^ (k + 1) = 2 ^ 23 := by rw [← pow_add]; congr 1; omega
  have hx : x.toNat = (signBit x * 2 ^ 8 + i) * 2 ^ (22 - k) * 2 ^ (k + 1) + X := by
    rw [mul_assoc, hunit]
    omega
  rw [hx, roundBelow_mul_add, add_mul, mul_assoc, hunit]
  ring

theorem bfloat_error {x r : Word} {k : Nat} (hk : k < 23) (hfin : expField x ≠ 255)
    (hr : r.toNat = roundBelow x.toNat k % 2 ^ (31 - k) * 2 ^ (k + 1)) :
    2 * |val r - val x| ≤ 2 ^ (k + 1) * 2 ^ ((max (expField x) 1 : ℕ) - 150 : ℤ) := by
  obtain ⟨i, X, hn, hlo, hhi, hB⟩ := exists_binade x
  have hi : i < 254 := by have := expField_eq x; omega
  have hsign := signBit_lt x
  have hunit : 2 ^ (22 - k) * 2 ^ (k + 1) = 2 ^ 23 := by rw [← pow_add]; congr 1; omega
  have hwidth : 2 ^ (31 - k) * 2 ^ (k + 1) = 2 ^ 32 := by rw [← pow_add]; congr 1; omega
  have hround : roundBelow X k * 2 ^ (k + 1) ≤ 2 * 2 ^ 23 := by
    rw [← hunit, ← mul_assoc]
    exact Nat.mul_le_mul_right _ (roundBelow_le (by rw [mul_assoc, hunit]; exact hhi.le))
  have hround' : i = 0 ∨ 2 ^ 23 ≤ roundBelow X k * 2 ^ (k + 1) := hlo.imp_right fun h => by
    rw [← hunit]
    exact Nat.mul_le_mul_right _ (le_roundBelow (hunit ▸ h))
  have hpattern := roundBelow_pattern hk hn
  have hfits : roundBelow x.toNat k < 2 ^ (31 - k) := Nat.lt_of_mul_lt_mul_right (a := 2 ^ (k + 1)) (by omega)
  rw [Nat.mod_eq_of_lt hfits, hpattern] at hr
  have hsr : signBit r = signBit x := by rw [signBit_eq]; omega
  have hnr : r.toNat % 2 ^ 31 = i * 2 ^ 23 + roundBelow X k * 2 ^ (k + 1) := by omega
  have hu : (0 : ℚ) < 2 ^ ((i : ℤ) + 1 - 150) := by positivity
  rw [val_of_binade hnr hround' hround, val_of_binade hn hlo hhi.le, hsr, abs_sub_signed, hB]
  push_cast
  calc _ ≤ 2 * (2 ^ k * 2 ^ ((i : ℤ) + 1 - 150)) := mul_le_mul_of_nonneg_left (rounding_error X k hu).1 zero_le_two
    _ = _ := by rw [pow_succ', mul_assoc]

/-- Settles O29: of the 32 bits BF16ENC retains those above bit 15, BF24ENC those above bit 7. -/
theorem bFloatErrorBound : Obligations.BFloatErrorBound := by
  intro s x hfin unit
  have hlow16 : (zext32 (bf16enc x)).extractLsb' 0 16 = bf16enc x := extractLsb'_setWidth_word (by omega) _
  have hlow24 : (zext32 (bf24enc x)).extractLsb' 0 24 = bf24enc x := extractLsb'_setWidth_word (by omega) _
  refine ⟨⟨_, _, exec_bf16enc x s, exec_bf16dec _ s, fun _ => ?_⟩,
    _, _, exec_bf24enc x s, exec_bf24dec _ s, fun _ => ?_⟩
  · exact bfloat_error (k := 15) (by omega) hfin (by rw [hlow16, bf16dec_toNat, bf16enc_toNat])
  · exact bfloat_error (k := 7) (by omega) hfin (by rw [hlow24, bf24dec_toNat, bf24enc_toNat])

end Sys2Proof.Machine
end

section
/-! PROOFS, 43_unorm.md: the UNorm dequantizers and quantizers (R100 to R109). A dequantized integer is described by the
number of its pattern, a quantized pattern by the floor of its value; the round trip and the order follow from the two. -/

namespace Sys2Proof.Machine

/-! ## The maximum of a width (R3) -/

theorem unormMax_lt {N : Nat} (hN : N ≤ 24) : Config.unormMax N < 2 ^ 24 := by
  have hpow : 2 ^ N ≤ 2 ^ 24 := Nat.pow_le_pow_right two_pos hN
  rw [Config.unormMax]
  omega

/-- The maximum is odd, so no quotient by it is a tie. -/
theorem unormMax_odd {N : Nat} (hN : 0 < N) : Config.unormMax N % 2 = 1 := by
  obtain ⟨N, rfl⟩ := Nat.exists_eq_succ_of_ne_zero hN.ne'
  have hpos := Nat.two_pow_pos N
  rw [Config.unormMax, pow_succ]
  omega

/-! ## The operations (R102 to R107) -/

theorem exec_un8dec (n : BitVec 8) (s : State) :
    exec (.un8dec n) s = .next { s with rsp := some ⟨.ok, unormDec 8 n.toNat⟩ } := rfl

theorem exec_un16dec (n : BitVec 16) (s : State) :
    exec (.un16dec n) s = .next { s with rsp := some ⟨.ok, unormDec 16 n.toNat⟩ } := rfl

theorem exec_un24dec (n : BitVec 24) (s : State) :
    exec (.un24dec n) s = .next { s with rsp := some ⟨.ok, unormDec 24 n.toNat⟩ } := rfl

theorem exec_un8enc (x : Word) (s : State) :
    exec (.un8enc x) s = .next { s with rsp := some ⟨.ok, BitVec.ofNat 32 (unormEnc .exact 8 x)⟩ } := rfl

theorem exec_un16enc (x : Word) (s : State) :
    exec (.un16enc x) s = .next { s with rsp := some ⟨.ok, BitVec.ofNat 32 (unormEnc .exact 16 x)⟩ } := rfl

theorem exec_un24enc (x : Word) (s : State) :
    exec (.un24enc x) s = .next { s with rsp := some ⟨.ok, BitVec.ofNat 32 (unormEnc .exact 24 x)⟩ } := rfl

/-! ## Dequantizing (R100) -/

/-- `a / m` to the nearest integer. -/
def nearestQuotient (a m : Nat) : Nat := (2 * a + m) / (2 * m)

section
variable {a m : Nat}

theorem nearestQuotient_bounds (hm : 0 < m) (a : Nat) :
    2 * m * nearestQuotient a m ≤ 2 * a + m ∧ 2 * a < 2 * m * nearestQuotient a m + m := by
  have hdiv := Nat.div_add_mod (2 * a + m) (2 * m)
  have hlt := Nat.mod_lt (2 * a + m) (y := 2 * m) (by omega)
  rw [nearestQuotient]
  omega

theorem nearestQuotient_eq {q : Nat} (hlo : 2 * m * q ≤ 2 * a + m) (hhi : 2 * a < 2 * m * q + m) :
    nearestQuotient a m = q :=
  Nat.div_eq_of_lt_le (by rwa [mul_comm]) (by rw [add_mul q, mul_comm q]; omega)

/-- R100's rounding, by the quotient and the remainder; an odd divisor leaves no tie. -/
theorem nearestQuotient_of_odd (hodd : m % 2 = 1) :
    nearestQuotient a m = if 2 * (a % m) > m then a / m + 1 else a / m := by
  have hdiv : 2 * m * (a / m) + 2 * (a % m) = 2 * a := by rw [mul_assoc, ← mul_add, Nat.div_add_mod]
  have hlt := Nat.mod_lt a (y := m) (by omega)
  split_ifs
  · exact nearestQuotient_eq (by rw [mul_add]; omega) (by rw [mul_add]; omega)
  · exact nearestQuotient_eq (by omega) (by omega)

end

section
variable {max n t : Nat}

/-- The search ends at a `t` with `max <= n * 2^t < 2 * max`, when there is one within its fuel. -/
theorem unormShift_spec {fuel : Nat} (hlo : n * 2 ^ t < 2 * max) (hhi : max ≤ n * 2 ^ (t + fuel)) :
    t ≤ unormShift max n fuel t ∧ unormShift max n fuel t ≤ t + fuel ∧
      max ≤ n * 2 ^ unormShift max n fuel t ∧ n * 2 ^ unormShift max n fuel t < 2 * max := by
  induction fuel generalizing t with
  | zero => exact ⟨le_rfl, le_rfl, hhi, hlo⟩
  | succ fuel ih =>
    rw [unormShift]
    split_ifs with hstop
    · exact ⟨le_rfl, Nat.le_add_right .., hstop, hlo⟩
    · obtain ⟨hge, hle, hbounds⟩ := ih (t := t + 1) (by rw [pow_succ, ← mul_assoc]; omega)
        (by rwa [Nat.add_right_comm])
      exact ⟨by omega, by omega, hbounds⟩

/-- R100's exponent is unique. -/
theorem scale_unique {t' : Nat} (hlo : max ≤ n * 2 ^ t) (hhi : n * 2 ^ t < 2 * max) (hlo' : max ≤ n * 2 ^ t')
    (hhi' : n * 2 ^ t' < 2 * max) : t = t' := by
  have hmono {i j : Nat} (hij : i < j) : 2 * (n * 2 ^ i) ≤ n * 2 ^ j := by
    have hpow : 2 ^ (i + 1) ≤ 2 ^ j := Nat.pow_le_pow_right two_pos hij
    calc 2 * (n * 2 ^ i) = n * 2 ^ (i + 1) := by ring
      _ ≤ n * 2 ^ j := Nat.mul_le_mul_left n hpow
  rcases lt_trichotomy t t' with hlt | heq | hgt
  · have := hmono hlt
    omega
  · exact heq
  · have := hmono hgt
    omega

/-- The rounded significand keeps its leading bit, and rounding never carries out of it. -/
theorem significand_bounds (hmax : max < 2 ^ 24) (hscale : 1 ≤ t) (hlo : max ≤ n * 2 ^ t) (hhi : n * 2 ^ t < 2 * max) :
    2 ^ 23 ≤ nearestQuotient (n * 2 ^ (23 + t)) max ∧ nearestQuotient (n * 2 ^ (23 + t)) max < 2 ^ 24 := by
  have heven : n * 2 ^ t % 2 = 0 := by
    obtain ⟨t, rfl⟩ := Nat.exists_eq_add_of_le' hscale
    rw [pow_succ, ← mul_assoc, Nat.mul_mod_left]
  rw [nearestQuotient, Nat.le_div_iff_mul_le (by omega), Nat.div_lt_iff_lt_mul (by omega), pow_add, mul_left_comm n]
  omega

/-- The rounding is off by less than half, since its divisor is odd. -/
theorem abs_nearestQuotient_sub_lt {a : Nat} (hodd : max % 2 = 1) :
    2 * |(nearestQuotient a max : ℚ) - a / max| < 1 := by
  obtain ⟨hle, hlt⟩ := nearestQuotient_bounds (m := max) (by omega) a
  have hne : 2 * max * nearestQuotient a max ≠ 2 * a + max := fun h => by
    rw [mul_assoc] at h
    omega
  have hle' : (2 * max * nearestQuotient a max : ℚ) < 2 * a + max := by exact_mod_cast lt_of_le_of_ne hle hne
  have hlt' : (2 * a : ℚ) < 2 * max * nearestQuotient a max + max := by exact_mod_cast hlt
  have hpos : (0 : ℚ) < max := by exact_mod_cast (by omega : 0 < max)
  have hscale : (nearestQuotient a max : ℚ) - a / max = (max * nearestQuotient a max - a) / max := by field_simp
  rw [hscale, abs_div, abs_of_pos hpos, ← mul_div_assoc, div_lt_one hpos, ← abs_two, ← abs_mul, abs_lt]
  constructor <;> linarith

end

section
variable {N n : Nat}

theorem unormDec_zero (N : Nat) : unormDec N 0 = 0x00000000 := by
  rw [unormDec, if_pos rfl]

theorem unormDec_max (hN : 0 < N) : unormDec N (Config.unormMax N) = 0x3F800000 := by
  have hodd := unormMax_odd hN
  rw [unormDec, if_neg (by omega), if_pos rfl]

/-- Between the ends a dequantized integer has a scale as R100 asks for, and its pattern is that of the scale. -/
theorem unormDec_between (hN : 0 < N) (hN' : N ≤ 24) (hn : 0 < n) (hlt : n < Config.unormMax N) :
    ∃ t, 1 ≤ t ∧ t ≤ 25 ∧ Config.unormMax N ≤ n * 2 ^ t ∧ n * 2 ^ t < 2 * Config.unormMax N ∧
      (unormDec N n).toNat = (127 - t) * 2 ^ 23 + (nearestQuotient (n * 2 ^ (23 + t)) (Config.unormMax N) - 2 ^ 23) := by
  have hmax : Config.unormMax N ≤ n * 2 ^ (1 + N) := by
    have hpow : 2 ^ N ≤ n * 2 ^ (1 + N) := by
      rw [pow_add, mul_left_comm, ← mul_assoc]
      exact Nat.le_mul_of_pos_left _ (by omega)
    rw [Config.unormMax]
    omega
  obtain ⟨hge, hle, hlo, hhi⟩ := unormShift_spec (n := n) (t := 1) (by omega) hmax
  obtain ⟨hqlo, hqhi⟩ := significand_bounds (unormMax_lt hN') hge hlo hhi
  refine ⟨_, hge, by omega, hlo, hhi, ?_⟩
  rw [unormDec]
  dsimp only
  rw [if_neg (by omega), if_neg (by omega), ← nearestQuotient_of_odd (unormMax_odd hN), if_neg (by omega),
    BitVec.toNat_ofNat, Nat.shiftLeft_eq]
  exact Nat.mod_eq_of_lt (by omega)

theorem unormDec_dequantized (hN : 0 < N) (hN' : N ≤ 24) (n : Nat) :
    Dequantized n (Config.unormMax N) (unormDec N n) where
  zero h := h ▸ unormDec_zero N
  one h := h ▸ unormDec_max hN
  between t hlt hlo hhi := by
    have hn : 0 < n := Nat.pos_of_ne_zero fun h => by
      rw [h, zero_mul] at hlo
      omega
    obtain ⟨t', -, -, hlo', hhi', heq⟩ := unormDec_between hN hN' hn hlt
    rw [scale_unique hlo hhi hlo' hhi', heq, nearestQuotient]

end

/-- Settles O30: each width's equation of the dequantizer, on the low bits of the operand. -/
theorem unormDecode : Obligations.UnormDecode := by
  intro s off a
  refine ⟨decode_reqWord 0x34 off a, ⟨_, exec_un8dec _ s, ?_⟩, decode_reqWord 0x35 off a, ⟨_, exec_un16dec _ s, ?_⟩,
    decode_reqWord 0x36 off a, ⟨_, exec_un24dec _ s, ?_⟩⟩
  · rw [toNat_wire]
    exact unormDec_dequantized (N := 8) (by omega) (by omega) _
  · rw [toNat_wire]
    exact unormDec_dequantized (N := 16) (by omega) (by omega) _
  · rw [toNat_wire]
    exact unormDec_dequantized (N := 24) (by omega) (by omega) _

/-! ### The nearest value -/

section
variable {N n : Nat}

/-- Between the ends a dequantized integer is a positive normal, its significand the rounded quotient. -/
theorem val_unormDec_between (hN : 0 < N) (hN' : N ≤ 24) (hn : 0 < n) (hlt : n < Config.unormMax N) :
    ∃ t, 1 ≤ t ∧ t ≤ 25 ∧ signBit (unormDec N n) = 0 ∧ expField (unormDec N n) = 127 - t ∧
      val (unormDec N n) = nearestQuotient (n * 2 ^ (23 + t)) (Config.unormMax N) * 2 ^ ((127 - t : ℕ) - 150 : ℤ) := by
  obtain ⟨t, hge, hle, hlo, hhi, heq⟩ := unormDec_between hN hN' hn hlt
  obtain ⟨hqlo, hqhi⟩ := significand_bounds (unormMax_lt hN') hge hlo hhi
  obtain ⟨hs, hB, hM⟩ := fields_of_toNat (s := 0) (heq.trans (by rw [zero_mul, zero_add])) (by omega) (by omega)
  refine ⟨t, hge, hle, hs, hB, ?_⟩
  rw [val_fields, hs, if_neg (by omega), hM, Nat.add_sub_cancel' hqlo, hB, pow_zero, one_mul]

theorem val_zero : val 0x00000000 = 0 := by
  simp [val_eq_magnitude, magnitude]

theorem val_one : val 0x3F800000 = 1 := by
  rw [val_of_binade (i := 126) (X := 2 ^ 23) (by decide) (by omega) (by omega), show signBit 0x3F800000 = 0 by decide]
  norm_num

theorem unormDec_nearest (hN : 0 < N) (hN' : N ≤ 24) (n : Nat) :
    NearestQuotient n (Config.unormMax N) (unormDec N n) where
  zero h := by rw [h, unormDec_zero, val_zero]
  one h := by rw [h, unormDec_max hN, val_one]
  between hn hlt := by
    obtain ⟨t, hge, hle, hs, hB, hval⟩ := val_unormDec_between hN hN' hn hlt
    refine ⟨hs, by omega, by omega, ?_⟩
    have hu : (0 : ℚ) < 2 ^ ((127 - t : ℕ) - 150 : ℤ) := by positivity
    have hn : (n : ℚ) = (n * 2 ^ (23 + t) : ℕ) * 2 ^ ((127 - t : ℕ) - 150 : ℤ) := by
      rw [cast_mul_two_pow_mul_zpow, show ((127 - t : ℕ) - 150 + (23 + t : ℕ) : ℤ) = 0 by omega, zpow_zero, mul_one]
    rw [hval, hB, hn, mul_div_right_comm, ← sub_mul, abs_mul, abs_of_pos hu, ← mul_assoc]
    exact mul_lt_of_lt_one_left hu (abs_nearestQuotient_sub_lt (unormMax_odd hN))

end

/-- Settles O31: the significand is the quotient to the nearest integer, in the unit of the pattern. -/
theorem unormDecodeIsNearest : Obligations.UnormDecodeIsNearest := fun s =>
  ⟨fun n => ⟨_, exec_un8dec n s, unormDec_nearest (N := 8) (by omega) (by omega) _⟩,
    fun n => ⟨_, exec_un16dec n s, unormDec_nearest (N := 16) (by omega) (by omega) _⟩,
    fun n => ⟨_, exec_un24dec n s, unormDec_nearest (N := 24) (by omega) (by omega) _⟩⟩

/-! ## Quantizing (R101) -/

theorem isNaN32_iff (x : Word) : isNaN32 x = true ↔ expField x = 255 ∧ manField x ≠ 0 := by
  simp [isNaN32]

theorem isInf32_iff (x : Word) : isInf32 x = true ↔ expField x = 255 ∧ manField x = 0 := by
  simp [isInf32]

section
variable {N : Nat} {x : Word}

theorem unormEnc_of_nan (arith : Config.UnormArith) (N : Nat) (h : isNaN32 x = true) : unormEnc arith N x = 0 := by
  rw [unormEnc, if_pos h]

theorem unormEnc_of_negative (arith : Config.UnormArith) (N : Nat) (h : signBit x = 1) : unormEnc arith N x = 0 := by
  rw [unormEnc, if_pos h, ite_self]

theorem unormEnc_of_tiny (arith : Config.UnormArith) (N : Nat) (hB : expField x = 0) : unormEnc arith N x = 0 := by
  have hlow : ¬expField x ≥ 127 := by omega
  rw [unormEnc, if_neg hlow, if_pos hB, ite_self, ite_self]

theorem unormEnc_of_one_le (arith : Config.UnormArith) (N : Nat) (hs : signBit x = 0) (hB : 127 ≤ expField x)
    (hnum : expField x = 255 → manField x = 0) : unormEnc arith N x = Config.unormMax N := by
  have hnan : ¬isNaN32 x = true := fun h => ((isNaN32_iff x).1 h).2 (hnum ((isNaN32_iff x).1 h).1)
  rw [unormEnc, if_neg hnan, if_neg (by omega), if_pos hB]

/-- The exact rounding of a value below 1 stays within the maximum, so the final clamp changes nothing. -/
theorem unormRound_exact_le {max sig k : Nat} (hsig : sig ≤ 2 ^ k) : unormRound .exact max sig k ≤ max := by
  have hprod : sig * max ≤ 2 ^ k * max := Nat.mul_le_mul_right max hsig
  have hpos := Nat.two_pow_pos k
  rw [unormRound, ← Nat.lt_add_one_iff, Nat.div_lt_iff_lt_mul (Nat.two_pow_pos _)]
  calc 2 * sig * max + 2 ^ k = 2 * (sig * max) + 2 ^ k := by ring
    _ < 2 * (2 ^ k * max) + 2 * 2 ^ k := by omega
    _ = (max + 1) * 2 ^ (k + 1) := by ring

theorem unormEnc_of_between (N : Nat) (hs : signBit x = 0) (hB : 1 ≤ expField x) (hB' : expField x < 127) :
    unormEnc .exact N x = (2 * (2 ^ 23 + manField x) * Config.unormMax N + 2 ^ (150 - expField x)) /
      2 ^ (150 - expField x + 1) := by
  have hM : manField x < 2 ^ 23 := BitVec.isLt _
  have hnan : ¬isNaN32 x = true := fun h => by
    obtain ⟨hexp, -⟩ := (isNaN32_iff x).1 h
    omega
  have hpow : 2 ^ 24 ≤ 2 ^ (150 - expField x) := Nat.pow_le_pow_right two_pos (by omega)
  have hle := unormRound_exact_le (max := Config.unormMax N) (sig := 2 ^ 23 + manField x) (k := 150 - expField x)
    (by omega)
  rw [unormEnc, if_neg hnan, if_neg (by omega), if_neg (by omega), if_neg (by omega)]
  exact if_neg hle.not_gt

/-- The quantizers follow R101 on the fields of the pattern. -/
theorem unormEnc_quantized (hN : N ≤ 24) (x : Word) :
    Quantized x (Config.unormMax N) (BitVec.ofNat 32 (unormEnc .exact N x)) := by
  have hs := signBit_eq x
  have hB := expField_eq x
  have hM := manField_eq x
  have hr := toNat_ofNat_unormEnc (w := 32) (by omega : N ≤ 32) .exact x
  refine ⟨fun hexp hman => ?_, fun hneg => ?_, fun hpos hexp hnum => ?_, fun htiny => ?_, fun hpos hexp hexp' => ?_⟩
  · rw [unormEnc_of_nan _ N ((isNaN32_iff x).2 ⟨hB.trans hexp, hM ▸ hman⟩), BitVec.ofNat_eq_ofNat]
  · rw [unormEnc_of_negative _ N (by omega), BitVec.ofNat_eq_ofNat]
  · rw [hr, unormEnc_of_one_le _ N (by omega) (by omega) (by omega)]
  · rw [unormEnc_of_tiny _ N (by omega), BitVec.ofNat_eq_ofNat]
  · have hB' : expField x = x.toNat / 2 ^ 23 := by omega
    rw [hr, unormEnc_of_between N (by omega) (by omega) (by omega), hB', hM]

end

/-- Settles O32: each width's result is the quantized integer. -/
theorem unormEncode : Obligations.UnormEncode := fun s off x =>
  ⟨decode_reqWord 0x44 off x, ⟨_, exec_un8enc x s, unormEnc_quantized (N := 8) (by omega) x⟩,
    decode_reqWord 0x45 off x, ⟨_, exec_un16enc x s, unormEnc_quantized (N := 16) (by omega) x⟩,
    decode_reqWord 0x46 off x, ⟨_, exec_un24enc x s, unormEnc_quantized (N := 24) (by omega) x⟩⟩

/-! ### The value that is quantized (R101 in its one line) -/

/-- The value of a pattern, clamped to [0, 1]. -/
def clampedVal (x : Word) : ℚ := min 1 (max 0 (val x))

section
variable {N : Nat} {x : Word}

theorem clampedVal_of_nonpos (h : val x ≤ 0) : clampedVal x = 0 := by
  rw [clampedVal, max_eq_left h, min_eq_right zero_le_one]

theorem clampedVal_of_one_le (h : 1 ≤ val x) : clampedVal x = 1 := by
  rw [clampedVal, max_eq_right (zero_le_one.trans h), min_eq_left h]

theorem val_nonpos_of_negative (hs : signBit x = 1) : val x ≤ 0 := by
  rw [val_eq_magnitude, hs, pow_one, neg_one_mul]
  exact neg_nonpos.2 (magnitude_nonneg ..)

theorem one_le_val (hs : signBit x = 0) (hB : 127 ≤ expField x) : 1 ≤ val x := by
  rw [val_fields, hs, if_neg (by omega), pow_zero, one_mul]
  calc (1 : ℚ) = (2 ^ 23 : ℕ) * 2 ^ (-23 : ℤ) := by norm_num
    _ ≤ (2 ^ 23 + manField x : ℕ) * 2 ^ ((expField x : ℤ) - 150) := by
      gcongr
      · omega
      · exact one_le_two
      · omega

/-- A positive pattern with an exponent field below 127 lies in [0, 1) and is not clamped. -/
theorem clampedVal_of_lt (hs : signBit x = 0) (hB : expField x < 127) : clampedVal x = val x := by
  obtain ⟨i, X, hn, hlo, hhi, hi⟩ := exists_binade x
  have hval := val_of_binade hn hlo hhi.le
  rw [hs, pow_zero, one_mul] at hval
  have hnonneg : 0 ≤ val x := by rw [hval]; positivity
  have hle : val x ≤ 1 := by
    rw [hval]
    calc (X * 2 ^ ((i : ℤ) + 1 - 150) : ℚ) ≤ (2 ^ 24 : ℕ) * 2 ^ (-24 : ℤ) := by
          gcongr
          · omega
          · exact one_le_two
          · omega
      _ = 1 := by norm_num
  rw [clampedVal, max_eq_right hnonneg, min_eq_right hle]

/-- R101's integer division is the floor of its real expression. -/
theorem floor_scaled_add_half (sig k max : Nat) :
    ⌊(sig * 2 ^ (-k : ℤ) * max + 1 / 2 : ℚ)⌋ = ((2 * sig * max + 2 ^ k) / 2 ^ (k + 1) : ℕ) := by
  have hquot : (sig * 2 ^ (-k : ℤ) * max + 1 / 2 : ℚ) = (2 * sig * max + 2 ^ k : ℕ) / (2 ^ (k + 1) : ℕ) := by
    rw [zpow_neg, zpow_natCast]
    push_cast
    field_simp
    ring
  rw [hquot, Rat.floor_natCast_div_natCast, Int.natCast_ediv]

/-- R101 in its one line, on every finite pattern. -/
theorem unormEnc_eq_floor (hN : N ≤ 24) (hfin : expField x ≠ 255) :
    (unormEnc .exact N x : ℤ) = ⌊clampedVal x * Config.unormMax N + 1 / 2⌋ := by
  by_cases hneg : signBit x = 1
  · rw [unormEnc_of_negative _ N hneg, clampedVal_of_nonpos (val_nonpos_of_negative hneg)]
    norm_num
  have hs : signBit x = 0 := by have := signBit_lt x; omega
  by_cases hone : 127 ≤ expField x
  · rw [unormEnc_of_one_le _ N hs hone fun h => absurd h hfin, clampedVal_of_one_le (one_le_val hs hone), one_mul,
      Int.floor_natCast_add]
    norm_num
  rw [clampedVal_of_lt hs (by omega), val_fields, hs, pow_zero, one_mul]
  by_cases htiny : expField x = 0
  · have hM : manField x < 2 ^ 23 := BitVec.isLt _
    have hprod : manField x * Config.unormMax N < 2 ^ 23 * 2 ^ 24 := Nat.mul_lt_mul'' hM (unormMax_lt hN)
    have hfloor := floor_scaled_add_half (manField x) 149 (Config.unormMax N)
    rw [mul_assoc 2, Nat.div_eq_of_lt (by omega)] at hfloor
    rw [unormEnc_of_tiny _ N htiny, if_pos htiny]
    exact hfloor.symm
  · have hk : (expField x : ℤ) - 150 = -(150 - expField x : ℕ) := by omega
    rw [unormEnc_of_between N hs (by omega) (by omega), if_neg htiny, hk, floor_scaled_add_half]

end

/-- Settles O33: the obligation's `v` is the clamped value. -/
theorem unormEncodeIsExact : Obligations.UnormEncodeIsExact := by
  intro s x hfin v
  have h {N : Nat} (hN : N ≤ 24) :
      ((BitVec.ofNat 32 (unormEnc .exact N x)).toNat : ℤ) = ⌊v * Config.unormMax N + 1 / 2⌋ := by
    rw [toNat_ofNat_unormEnc (by omega), unormEnc_eq_floor hN hfin]
    rfl
  exact ⟨⟨_, exec_un8enc x s, h (N := 8) (by omega)⟩, ⟨_, exec_un16enc x s, h (N := 16) (by omega)⟩,
    ⟨_, exec_un24enc x s, h (N := 24) (by omega)⟩⟩

/-! ### The clamps (R108) -/

section
variable {N : Nat} {x : Word}

theorem unormEnc_of_val_nonpos (hN : N ≤ 24) (hfin : expField x ≠ 255) (h : val x ≤ 0) : unormEnc .exact N x = 0 := by
  rw [← Int.natCast_inj, unormEnc_eq_floor hN hfin, clampedVal_of_nonpos h]
  norm_num

theorem unormEnc_of_one_le_val (hN : N ≤ 24) (hfin : expField x ≠ 255) (h : 1 ≤ val x) :
    unormEnc .exact N x = Config.unormMax N := by
  rw [← Int.natCast_inj, unormEnc_eq_floor hN hfin, clampedVal_of_one_le h, one_mul, Int.floor_natCast_add]
  norm_num

end

/-- Settles O34: the values by R101's one line, the infinities and NaN by their own branches. -/
theorem unormClamps : Obligations.UnormClamps := by
  intro s x low high
  have hlow {N : Nat} (hN : N ≤ 24) : low → unormEnc .exact N x = 0
    | .inl ⟨hfin, hval⟩ => unormEnc_of_val_nonpos hN hfin hval
    | .inr (.inl ⟨_, hs⟩) => unormEnc_of_negative _ N hs
    | .inr (.inr hnan) => unormEnc_of_nan _ N hnan
  have hhigh {N : Nat} (hN : N ≤ 24) : high → unormEnc .exact N x = Config.unormMax N
    | .inl ⟨hfin, hval⟩ => unormEnc_of_one_le_val hN hfin hval
    | .inr ⟨hinf, hs⟩ => by
      obtain ⟨hB, hM⟩ := (isInf32_iff x).1 hinf
      exact unormEnc_of_one_le _ N hs (by omega) fun _ => hM
  refine ⟨fun h => ?_, fun h => ?_, _, _, _, exec_un8enc x s, exec_un16enc x s, exec_un24enc x s⟩
  · rw [exec_un8enc, exec_un16enc, exec_un24enc, hlow (by omega) h, hlow (by omega) h, hlow (by omega) h]
    exact ⟨rfl, rfl, rfl⟩
  · rw [exec_un8enc, exec_un16enc, exec_un24enc, hhigh (by omega) h, hhigh (by omega) h, hhigh (by omega) h]
    exact ⟨rfl, rfl, rfl⟩

/-! ## One after the other (R109) -/

section
variable {N : Nat}

/-- Quantizing keeps the order of the values. -/
theorem unormEnc_mono (hN : N ≤ 24) {x y : Word} (hx : expField x ≠ 255) (hy : expField y ≠ 255)
    (h : val x ≤ val y) : unormEnc .exact N x ≤ unormEnc .exact N y := by
  have hclamped : clampedVal x ≤ clampedVal y := min_le_min_left 1 (max_le_max_left 0 h)
  rw [← Int.ofNat_le, unormEnc_eq_floor hN hx, unormEnc_eq_floor hN hy]
  exact Int.floor_le_floor (by gcongr)

/-- A dequantized integer is finite. -/
theorem expField_unormDec (hN : 0 < N) (hN' : N ≤ 24) {n : Nat} (hn : n ≤ Config.unormMax N) :
    expField (unormDec N n) ≠ 255 := by
  rcases Nat.eq_zero_or_pos n with rfl | hpos
  · rw [unormDec_zero]
    decide
  rcases hn.eq_or_lt with rfl | hlt
  · rw [unormDec_max hN]
    decide
  · obtain ⟨-, -, hB, -⟩ := (unormDec_nearest hN hN' n).between hpos hlt
    omega

/-- The rounding error of the dequantizer, times the maximum, is below one half, so the quantizer's floor undoes it. -/
theorem unormEnc_unormDec (hN : 0 < N) (hN' : N ≤ 24) {n : Nat} (hn : n ≤ Config.unormMax N) :
    unormEnc .exact N (unormDec N n) = n := by
  rcases Nat.eq_zero_or_pos n with rfl | hpos
  · rw [unormDec_zero]
    exact unormEnc_of_tiny _ N (by decide)
  rcases hn.eq_or_lt with rfl | hlt
  · rw [unormDec_max hN]
    exact unormEnc_of_one_le _ N (by decide) (by decide) (by decide)
  obtain ⟨hs, -, hB, herr⟩ := (unormDec_nearest hN hN' n).between hpos hlt
  have hmax : (Config.unormMax N : ℚ) < 2 ^ 24 := by exact_mod_cast unormMax_lt hN'
  have hmax' : (0 : ℚ) < Config.unormMax N := by exact_mod_cast hpos.trans hlt
  have hulp := herr.trans_le (zpow_le_zpow_right₀ one_le_two (by omega : _ ≤ (-24 : ℤ)))
  have hscaled : |val (unormDec N n) * Config.unormMax N - n| < 1 / 2 := by
    have heq : val (unormDec N n) * Config.unormMax N - n =
        (val (unormDec N n) - n / Config.unormMax N) * Config.unormMax N := by field_simp
    rw [heq, abs_mul, abs_of_pos hmax']
    calc _ ≤ 2 ^ (-24 : ℤ) / 2 * (Config.unormMax N : ℚ) := by gcongr; linarith
      _ < 2 ^ (-24 : ℤ) / 2 * 2 ^ 24 := by gcongr
      _ = 1 / 2 := by norm_num
  obtain ⟨hlo, hhi⟩ := abs_lt.1 hscaled
  rw [← Int.natCast_inj, unormEnc_eq_floor hN' (by omega), clampedVal_of_lt hs (by omega), Int.floor_eq_iff]
  push_cast
  constructor <;> linarith

/-- An inversion would be one of the quantized integers too, and those are the integers themselves. -/
theorem val_unormDec_mono (hN : 0 < N) (hN' : N ≤ 24) {m n : Nat} (hmn : m ≤ n) (hn : n ≤ Config.unormMax N) :
    val (unormDec N m) ≤ val (unormDec N n) := by
  by_contra hgt
  have hm := hmn.trans hn
  have hle := unormEnc_mono hN' (expField_unormDec hN hN' hn) (expField_unormDec hN hN' hm) (not_le.1 hgt).le
  rw [unormEnc_unormDec hN hN' hn, unormEnc_unormDec hN hN' hm] at hle
  exact hgt (le_antisymm hmn hle ▸ le_rfl)

/-- The dequantizer's operand is the quantizer's result, whose low bits hold the whole integer. -/
theorem toNat_wire_unormEnc (hN : N ≤ 32) (x : Word) :
    ((BitVec.ofNat 32 (unormEnc .exact N x)).extractLsb' 0 N).toNat = unormEnc .exact N x := by
  rw [ofNat_unormEnc_eq_zext32 hN, zext32, extractLsb'_setWidth_word hN, toNat_ofNat_unormEnc le_rfl]

/-- Quantizing, and dequantizing the result, keep the order of the values. -/
theorem unorm_mono (hN : 0 < N) (hN' : N ≤ 24) {x y : Word} (hx : expField x ≠ 255) (hy : expField y ≠ 255)
    (h : val x ≤ val y) :
    (BitVec.ofNat 32 (unormEnc .exact N x)).toNat ≤ (BitVec.ofNat 32 (unormEnc .exact N y)).toNat ∧
      val (unormDec N ((BitVec.ofNat 32 (unormEnc .exact N x)).extractLsb' 0 N).toNat) ≤
        val (unormDec N ((BitVec.ofNat 32 (unormEnc .exact N y)).extractLsb' 0 N).toNat) := by
  have hmono := unormEnc_mono hN' hx hy h
  rw [toNat_ofNat_unormEnc (by omega), toNat_ofNat_unormEnc (by omega), toNat_wire_unormEnc (by omega),
    toNat_wire_unormEnc (by omega)]
  exact ⟨hmono, val_unormDec_mono hN hN' hmono (unormEnc_le ..)⟩

/-- The quantizer's word for a dequantized wire integer is that integer. -/
theorem ofNat_unormEnc_unormDec (hN : 0 < N) (hN' : N ≤ 24) (n : BitVec N) :
    BitVec.ofNat 32 (unormEnc .exact N (unormDec N n.toNat)) = n.setWidth 32 := by
  have hn : n.toNat ≤ Config.unormMax N := Nat.le_sub_one_of_lt n.isLt
  rw [unormEnc_unormDec hN hN' hn, BitVec.ofNat_toNat]

end

/-- Settles O35: the quantizer undoes the dequantizer in every width. -/
theorem unormRoundTrip : Obligations.UnormRoundTrip := by
  refine fun s => ⟨fun n => ⟨_, exec_un8dec n s, ?_⟩, fun n => ⟨_, exec_un16dec n s, ?_⟩,
    fun n => ⟨_, exec_un24dec n s, ?_⟩⟩
  · rw [exec_un8enc, ofNat_unormEnc_unormDec (by omega) (by omega)]
  · rw [exec_un16enc, ofNat_unormEnc_unormDec (by omega) (by omega)]
  · rw [exec_un24enc, ofNat_unormEnc_unormDec (by omega) (by omega)]

/-- Settles O36: both operations keep the order, in every width. -/
theorem unormMonotone : Obligations.UnormMonotone := by
  intro s x y hx hy h
  obtain ⟨hint8, hval8⟩ := unorm_mono (N := 8) (by omega) (by omega) hx hy h
  obtain ⟨hint16, hval16⟩ := unorm_mono (N := 16) (by omega) (by omega) hx hy h
  obtain ⟨hint24, hval24⟩ := unorm_mono (N := 24) (by omega) (by omega) hx hy h
  exact ⟨⟨_, _, _, _, exec_un8enc x s, exec_un8enc y s, hint8, exec_un8dec _ s, exec_un8dec _ s, hval8⟩,
    ⟨_, _, _, _, exec_un16enc x s, exec_un16enc y s, hint16, exec_un16dec _ s, exec_un16dec _ s, hval16⟩,
    ⟨_, _, _, _, exec_un24enc x s, exec_un24enc y s, hint24, exec_un24dec _ s, exec_un24dec _ s, hval24⟩⟩

end Sys2Proof.Machine
end

section
/-! PROOFS, 44_header.md: the identifier and HDRENC's operand as two packings of one header (R115 to R117, R120), the
DLC coder (R118, R119, R121) and the frame sequences (R123 to R125), whose stores and loads are described by `deliver`. -/

namespace Sys2Proof.Machine

/-! ## The identifier and HDRENC's operand (R115 to R117, R120) -/

/-- The identifier is the inverted priority above the composite. -/
theorem identifier_eq_append (o : Config.FlagOrder) (p : Priority) (da : DeviceAddress) :
    identifier o p da = flagBit 1 (!p.bit) ++ packAddress o da := by
  apply BitVec.eq_of_getLsbD_eq
  intro i hi
  rw [BitVec.getLsbD_append]
  by_cases h : i < 10
  · rw [if_pos h, packAddress_getLsbD o da i h]
    cases o <;> interval_cases i <;> simp [identifier, peripheralPos, powerPos]
  · obtain rfl : i = 10 := by omega
    cases o <;> simp [identifier, peripheralPos, powerPos]

theorem toNat_bool_not (b : Bool) : (!b).toNat = 1 - b.toNat := by cases b <;> rfl

theorem identifier_toNat (o : Config.FlagOrder) (p : Priority) (da : DeviceAddress) :
    (identifier o p da).toNat = (1 - p.bit.toNat) * 2 ^ 10 + (packAddress o da).toNat := by
  rw [identifier_eq_append, toNat_append_eq_add, flagBit_toNat one_pos, toNat_bool_not]

theorem identifier_getLsbD_priority (o : Config.FlagOrder) (p : Priority) (da : DeviceAddress) :
    (identifier o p da).getLsbD 10 = !p.bit := by
  rw [identifier_eq_append, BitVec.getLsbD_append]
  simp

theorem identifier_extractLsb'_address (o : Config.FlagOrder) (p : Priority) (da : DeviceAddress) :
    (identifier o p da).extractLsb' 0 10 = packAddress o da := by
  rw [identifier_eq_append, BitVec.extractLsb'_append_eq_right]

theorem toNat_getLsbD {n : Nat} (v : BitVec n) (i : Nat) : (v.getLsbD i).toNat = v.toNat / 2 ^ i % 2 :=
  Nat.toNat_testBit v.toNat i

/-- The operand that carries the header of `a` is `a` without the bits HDRENC ignores. -/
theorem headerOperand_of_fields (a : Word) :
    headerOperand (.ofBit (a.getLsbD 16)) (unpackAddress Config.hdrFlagOrder (a.extractLsb' 0 10)) =
      a &&& 0x000103FF := by
  have hmask : ∀ i < 32, (0x000103FF : Word).getLsbD i = (decide (i = 16) || decide (i < 10)) := by decide
  apply BitVec.eq_of_getLsbD_eq
  intro i hi
  rw [headerOperand, packAddress_unpackAddress, Priority.bit_ofBit, BitVec.getLsbD_and, hmask i hi]
  by_cases h : i < 16
  · by_cases h10 : i < 10 <;> simp [h, h10, hi, show i ≠ 16 by omega]
  · by_cases h16 : i = 16
    · subst h16; simp
    · simp [hi, h, h16, show i - 16 ≠ 0 by omega, show ¬ i < 10 by omega]

/-- The identifier of the header that `a[10:0]` carries is `a[10:0]`. -/
theorem identifier_of_fields (o : Config.FlagOrder) (a : Word) :
    zext32 (identifier o (.ofBit (!a.getLsbD 10)) (unpackAddress o (a.extractLsb' 0 10))) = a &&& 0x7FF := by
  have hmask : ∀ i < 32, (0x7FF : Word).getLsbD i = decide (i < 11) := by decide
  apply BitVec.eq_of_getLsbD_eq
  intro i hi
  rw [zext32, identifier_eq_append, packAddress_unpackAddress, Priority.bit_ofBit, BitVec.getLsbD_and, hmask i hi,
    BitVec.getLsbD_setWidth, BitVec.getLsbD_append]
  by_cases h : i < 10
  · simp [h, hi, show i < 11 by omega]
  · by_cases h10 : i = 10
    · subst h10; simp
    · simp [h, show ¬ i < 11 by omega, show i - 10 ≠ 0 by omega]

/-! ## HDRENC and HDRDEC -/

theorem exec_hdrenc (p : Priority) (da : DeviceAddress) (s : State) :
    exec (.hdrenc p da) s = .next { s with rsp := some ⟨.ok, zext32 (identifier .peripheralHigh p da)⟩ } := rfl

/-- HDRDEC's result has the format of HDRENC's operand (R117). -/
theorem exec_hdrdec (id : BitVec 11) :
    exec (.hdrdec id) = respond
      (headerOperand (.ofBit (!id.getLsbD 10)) (unpackAddress Config.hdrFlagOrder (id.extractLsb' 0 10))) := by
  rw [headerOperand, packAddress_unpackAddress, Priority.bit_ofBit]
  rfl

/-- HDRDEC reads its identifier in the low bits of the operand. -/
theorem exec_hdrdec_lowBits (a : Word) :
    exec (.hdrdec (a.extractLsb' 0 11)) = respond
      (headerOperand (.ofBit (!a.getLsbD 10)) (unpackAddress Config.hdrFlagOrder (a.extractLsb' 0 10))) := by
  have hpriority : (a.extractLsb' 0 11).getLsbD 10 = a.getLsbD 10 := by simp
  rw [exec_hdrdec, hpriority, BitVec.extractLsb'_extractLsb'_of_le (by omega)]

theorem performWord_hdrenc (off : BitVec 8) (a : Word) :
    performWord (reqWord 0x50 off a) = respond (zext32 (identifier Config.hdrFlagOrder (.ofBit (a.getLsbD 16))
      (unpackAddress Config.hdrFlagOrder (a.extractLsb' 0 10)))) :=
  performWord_of_row rfl rfl

theorem performWord_hdrdec (off : BitVec 8) (a : Word) :
    performWord (reqWord 0x51 off a) = respond (headerOperand (.ofBit (!a.getLsbD 10))
      (unpackAddress Config.hdrFlagOrder (a.extractLsb' 0 10))) :=
  performWord_of_row rfl (exec_hdrdec_lowBits a)

/-- HDRENC of the operand that carries a header answers its identifier. -/
theorem performWord_hdrenc_headerOperand (off : BitVec 8) (p : Priority) (da : DeviceAddress) :
    performWord (reqWord 0x50 off (headerOperand p da)) = respond (zext32 (identifier Config.hdrFlagOrder p da)) := by
  rw [performWord_hdrenc, headerOperand_getLsbD_priority, headerOperand_extractLsb'_address, Priority.ofBit_bit,
    unpackAddress_packAddress]

/-- HDRDEC of a header's identifier answers the operand that carries the header. -/
theorem performWord_hdrdec_identifier (off : BitVec 8) (p : Priority) (da : DeviceAddress) :
    performWord (reqWord 0x51 off (zext32 (identifier Config.hdrFlagOrder p da))) = respond (headerOperand p da) := by
  refine performWord_of_row rfl ((exec_hdrdec _).trans ?_)
  rw [zext32, extractLsb'_setWidth_word (by omega), identifier_getLsbD_priority, identifier_extractLsb'_address,
    Bool.not_not, Priority.ofBit_bit, unpackAddress_packAddress]

/-- A presented word that performs as an answer leaves nothing but the response. -/
theorem step_present_respond {w : ReqWord} {r : Word} (h : performWord w = respond r) (s : State) :
    step (s.present w) = .next { s with rsp := some ⟨.ok, r⟩ } := by
  rw [step_present, h, respond_eq]

/-- Settles O37: the row reads the fields that the statement names, and the identifier is their number. -/
theorem headerEncode : Obligations.HeaderEncode := by
  intro s off a da p
  have hda : unpackAddress .peripheralHigh (a.extractLsb' 0 10) = da := by
    simp [unpackAddress, peripheralPos, powerPos, da]
  have hp : p.bit.toNat = a.toNat / 2 ^ 16 % 2 := by
    rw [← toNat_getLsbD]
    exact congrArg Bool.toNat (Priority.bit_ofBit _)
  refine ⟨hda ▸ decode_reqWord 0x50 off a, _, exec_hdrenc p da s, ?_⟩
  rw [zext32_toNat (by omega), identifier_toNat, packAddress_toNat, hp]
  omega

/-- Settles O38: the result is the number of HDRENC's operand. -/
theorem headerDecode : Obligations.HeaderDecode := by
  intro s off a
  refine ⟨decode_reqWord 0x51 off a, _, congrFun (exec_hdrdec_lowBits a) s, ?_⟩
  rw [headerOperand_toNat, packAddress_unpackAddress, Priority.bit_ofBit, toNat_wire, toNat_bool_not, toNat_getLsbD]

/-- Settles O39: each operation reads a header from `a`, and the other packs that header back. -/
theorem headerBijection : Obligations.HeaderBijection := by
  intro s off a
  refine ⟨⟨_, step_present_respond (performWord_hdrenc off a) s, ?_⟩,
    ⟨_, step_present_respond (performWord_hdrdec off a) s, ?_⟩⟩
  · rw [step_present_respond (performWord_hdrdec_identifier off _ _), headerOperand_of_fields]
  · rw [step_present_respond (performWord_hdrenc_headerOperand off _ _), identifier_of_fields]

/-! ## The DLC coder (R118, R119, R121) -/

theorem exec_dlcenc_of_le {len : Nat} (h : len ≤ 6) : exec (.dlcenc len) = respond (BitVec.ofNat 32 (len + 2)) :=
  funext fun _ => if_neg (not_lt.mpr h)

theorem exec_dlcenc_of_gt {len : Nat} (h : 6 < len) : exec (.dlcenc len) = raise .contractViolation :=
  funext fun _ => if_pos h

theorem exec_dlcdec_inRange {dlc : Nat} (h : 2 ≤ dlc) (h' : dlc ≤ 8) :
    exec (.dlcdec dlc) = respond (BitVec.ofNat 32 (dlc - 2)) :=
  funext fun _ => if_neg (by omega)

theorem exec_dlcdec_outOfRange {dlc : Nat} (h : dlc < 2 ∨ 8 < dlc) : exec (.dlcdec dlc) = raise .malformedFrame :=
  funext fun _ => if_pos h

theorem toNat_ofNat_of_lt_256 {n : Nat} (h : n < 256) : (BitVec.ofNat 32 n).toNat = n := by
  rw [BitVec.toNat_ofNat, Nat.mod_eq_of_lt (by omega)]

/-- A number that fits a byte is read back from the low byte of an operand. -/
theorem toNat_lowByte {n : Nat} (h : n < 256) : ((BitVec.ofNat 32 n).extractLsb' 0 8).toNat = n := by
  rw [toNat_wire, toNat_ofNat_of_lt_256 h]
  exact Nat.mod_eq_of_lt h

/-- Settles O40: the row reads the low byte, which DLCENC compares with 6. -/
theorem dlcEncode : Obligations.DlcEncode := by
  intro s off a len
  refine ⟨?_, fun h => ⟨_, congrFun (exec_dlcenc_of_le h) s, toNat_ofNat_of_lt_256 (by omega)⟩,
    fun h => congrFun (exec_dlcenc_of_gt h) s⟩
  rw [decode_reqWord_of_row rfl, toNat_wire]
  rfl

/-- Settles O41: the row reads the low byte, which DLCDEC compares with 2 and 8. -/
theorem dlcDecode : Obligations.DlcDecode := by
  intro s off a dlc
  refine ⟨?_, fun h h' => ⟨_, congrFun (exec_dlcdec_inRange h h') s, ?_⟩,
    fun h => congrFun (exec_dlcdec_outOfRange h) s⟩
  · rw [decode_reqWord_of_row rfl, toNat_wire]
    rfl
  · rw [toNat_ofNat_of_lt_256 (by omega)]
    omega

/-- The response of an operation that answers. -/
theorem responseOf_of_respond {i : Instr} {r : Word} (h : exec i = respond r) (s : State) :
    responseOf i s = some ⟨.ok, r⟩ :=
  responseOf_of_exec (congrFun h s)

/-- Settles O42: each coder answers in the other's range. -/
theorem dlcInvariant : Obligations.DlcInvariant := by
  refine fun s => ⟨fun len h => ?_, fun dlc h h' => ?_, fun len d hd => ?_⟩
  · refine ⟨_, responseOf_of_respond (exec_dlcenc_of_le h) s, ?_⟩
    rw [toNat_ofNat_of_lt_256 (by omega)]
    exact responseOf_of_respond (exec_dlcdec_inRange (by omega) (by omega)) s
  · refine ⟨_, responseOf_of_respond (exec_dlcdec_inRange h h') s, ?_⟩
    rw [toNat_ofNat_of_lt_256 (by omega), responseOf_of_respond (exec_dlcenc_of_le (by omega)) s, Nat.sub_add_cancel h]
  · by_cases h : len ≤ 6
    · rw [responseOf_of_respond (exec_dlcenc_of_le h) s] at hd
      obtain rfl : BitVec.ofNat 32 (len + 2) = d := by simpa using hd
      rw [toNat_ofNat_of_lt_256 (by omega)]
      omega
    · have hraise := responseOf_of_exec (congrFun (exec_dlcenc_of_gt (not_le.mp h)) s)
      rw [hraise] at hd
      cases hd

/-- The coders as requests: a length or a DLC below 256 is read whole. -/
theorem performWord_dlcenc {len : Nat} (h : len < 256) (off : BitVec 8) :
    performWord (reqWord 0x52 off (BitVec.ofNat 32 len)) = exec (.dlcenc len) :=
  performWord_of_row rfl (by rw [toNat_lowByte h])

theorem performWord_dlcdec {dlc : Nat} (h : dlc < 256) (off : BitVec 8) :
    performWord (reqWord 0x53 off (BitVec.ofNat 32 dlc)) = exec (.dlcdec dlc) :=
  performWord_of_row rfl (by rw [toNat_lowByte h])

/-! ## One request of a frame sequence -/

/-- A sequence goes on from a request that is done. -/
theorem Run.andThen_of_done {α β : Type} {run : Run α} {v : α} {s : State} (h : run = .done v s)
    (f : α → State → Run β) : run.andThen f = f v s := by
  rw [h, Run.andThen]

/-- A request that raises stops the requester, with nothing changed but the response. -/
theorem ask_raise {m : Mnemonic} {off : BitVec 8} {a : Word} {c : Cause}
    (h : performWord (reqWord m.op off a) = raise c) (s : State) :
    ask m off a s = .stopped ⟨c.status, 0⟩ { s with rsp := some ⟨c.status, 0⟩ } :=
  ask_of_not_ok (by rw [h, raise_eq]) rfl c.status_ne_ok

theorem ask_hdrenc (p : Priority) (da : DeviceAddress) (s : State) :
    ask .hdrenc 0 (headerOperand p da) s = .done (zext32 (identifier Config.hdrFlagOrder p da))
      { s with rsp := some ⟨.ok, zext32 (identifier Config.hdrFlagOrder p da)⟩ } :=
  ask_respond (m := .hdrenc) (performWord_hdrenc_headerOperand 0 p da) s

theorem ask_hdrdec (p : Priority) (da : DeviceAddress) (s : State) :
    ask .hdrdec 0 (zext32 (identifier Config.hdrFlagOrder p da)) s =
      .done (headerOperand p da) { s with rsp := some ⟨.ok, headerOperand p da⟩ } :=
  ask_respond (m := .hdrdec) (performWord_hdrdec_identifier 0 p da) s

theorem ask_dlcenc {len : Nat} (h : len ≤ 6) (s : State) :
    ask .dlcenc 0 (BitVec.ofNat 32 len) s =
      .done (BitVec.ofNat 32 (len + 2)) { s with rsp := some ⟨.ok, BitVec.ofNat 32 (len + 2)⟩ } :=
  ask_respond (m := .dlcenc) ((performWord_dlcenc (by omega) 0).trans (exec_dlcenc_of_le h)) s

theorem ask_dlcdec {len : Nat} (h : len ≤ 6) (s : State) :
    ask .dlcdec 0 (BitVec.ofNat 32 (len + 2)) s =
      .done (BitVec.ofNat 32 len) { s with rsp := some ⟨.ok, BitVec.ofNat 32 len⟩ } :=
  ask_respond (m := .dlcdec) ((performWord_dlcdec (by omega) 0).trans (exec_dlcdec_inRange (by omega) (by omega))) s

/-- STU8 does to BUF what the outside's write of the byte does. -/
theorem ask_stu8 {addr : Nat} (haddr : addr < 8) (b : Byte) (s : State) :
    ask .stu8 (BitVec.ofNat 8 addr) (zext32 b) s = .done 0 { s.outsideWrite addr b with rsp := some ⟨.ok, 0⟩ } := by
  have hoff : (BitVec.ofNat 8 addr).toNat = addr := toNat_ofNat_of_fitsByte (decide_eq_true (by omega))
  rw [ask_store (carriesWire8.store _ _) (by omega), hoff, zext32, extractLsb'_setWidth_word (by omega)]
  simp [writeLE, State.outsideWrite]

/-- LDU8 reads a byte and changes nothing. -/
theorem ask_ldu8 {addr : Nat} (haddr : addr < 8) (s : State) :
    ask .ldu8 (BitVec.ofNat 8 addr) 0 s =
      .done (zext32 (s.bufByte addr)) { s with rsp := some ⟨.ok, zext32 (s.bufByte addr)⟩ } := by
  have hoff : (BitVec.ofNat 8 addr).toNat = addr := toNat_ofNat_of_fitsByte (decide_eq_true (by omega))
  have hread : BitVec.ofNat 8 (readLE s addr 1) = s.bufByte addr := by simp [readLE_one]
  rw [ask_load (carriesWire8.load _ _) (by omega), hoff, hread]

/-! ## The driver's bytes in BUF -/

theorem deliver_cons {off : Nat} (hoff : off < 8) (b : Byte) (data : List Byte) (s : State) :
    deliver (b :: data) off s = deliver data (off + 1) (s.outsideWrite off b) := if_pos hoff

theorem deliver_setRsp (data : List Byte) (off : Nat) (s : State) (q : Option Response) :
    deliver data off { s with rsp := q } = { deliver data off s with rsp := q } := by
  induction data generalizing off s with
  | nil => rfl
  | cons b data ih =>
    by_cases hoff : off < 8
    · rw [deliver_cons hoff, deliver_cons hoff]
      exact ih (off + 1) (s.outsideWrite off b)
    · simp [deliver, hoff]

/-- A byte of BUF after a delivery: the delivered byte that falls on it, or what stood there. -/
theorem bufByte_deliver {data : List Byte} {off : Nat} (hfits : off + data.length ≤ 8) (s : State) (a : Nat) :
    (deliver data off s).bufByte a =
      if off ≤ a then (data[a - off]?).getD (s.bufByte a) else s.bufByte a := by
  induction data generalizing off s with
  | nil => simp [deliver]
  | cons b data ih =>
    rw [List.length_cons] at hfits
    rw [deliver_cons (by omega), ih (by omega), State.bufByte_outsideWrite]
    rcases lt_trichotomy a off with h | rfl | h
    · simp [h.ne, show ¬ off + 1 ≤ a by omega, show ¬ off ≤ a by omega]
    · simp
    · simp [h.ne', h.le, show off + 1 ≤ a by omega, show a - off = a - (off + 1) + 1 by omega]

theorem bufByte_deliver_zero {data : List Byte} (hfits : data.length ≤ 8) (s : State) (a : Nat) :
    (deliver data 0 s).bufByte a = (data[a]?).getD (s.bufByte a) := by
  rw [bufByte_deliver (by omega), if_pos (Nat.zero_le a), Nat.sub_zero]

/-- The delivered bytes are read back in their order. -/
theorem map_bufByte_deliver {data : List Byte} (hfits : data.length ≤ 8) (s : State) (k : Nat) :
    (List.range' k (data.length - k)).map (deliver data 0 s).bufByte = data.drop k := by
  apply List.ext_getElem (by simp)
  intro i _ hi
  rw [List.length_drop] at hi
  simp [bufByte_deliver_zero hfits, show k + i < data.length by omega]

/-! ## PKTSER (R123) -/

/-- The data section of a record's frame (20_memory.md R28). -/
def Packet.data (p : Packet) : List Byte := p.command :: p.senderId :: p.meaningful

theorem Packet.length_data {p : Packet} (hp : p.wf) : p.data.length = p.contentLength + 2 := by
  simp [Packet.data, p.length_meaningful hp]

theorem Packet.length_data_le {p : Packet} (hp : p.wf) : p.data.length ≤ 8 :=
  (p.length_data hp).trans_le (Nat.add_le_add_right hp 2)

section
variable {p : Packet} (hp : p.wf) (s : State)
include hp

theorem commandByte_deliver : (deliver p.data 0 s).commandByte = p.command :=
  bufByte_deliver_zero (p.length_data_le hp) s 0

theorem senderIdByte_deliver : (deliver p.data 0 s).senderIdByte = p.senderId :=
  bufByte_deliver_zero (p.length_data_le hp) s 1

theorem contentByte_deliver {i : Nat} (h : i < Config.maxContent) (hi : i < p.contentLength) :
    (deliver p.data 0 s).contentByte i = p.content[i] := by
  have hbyte : p.data[2 + i]? = some p.content[i] := by
    rw [Nat.add_comm]
    exact p.getElem?_meaningful i h hi
  rw [State.contentByte, bufByte_deliver_zero (p.length_data_le hp), hbyte, Option.getD_some]

theorem bufByte_deliver_behind {a : Nat} (ha : p.contentLength + 2 ≤ a) :
    (deliver p.data 0 s).bufByte a = s.bufByte a := by
  have hnone : p.data[a]? = none := List.getElem?_eq_none ((p.length_data hp).trans_le ha)
  rw [bufByte_deliver_zero (p.length_data_le hp), hnone, Option.getD_none]

/-- The content of a delivered frame is the record's meaningful content. -/
theorem map_bufByte_deliver_content :
    (List.range' 2 p.contentLength).map (deliver p.data 0 s).bufByte = p.meaningful := by
  have hdrop := map_bufByte_deliver (p.length_data_le hp) s 2
  rwa [p.length_data hp, Nat.add_sub_cancel] at hdrop

end

/-- PKTSER's loop leaves BUF as a delivery of the content does. -/
theorem storeContent_done {bytes : List Byte} {i : Nat} (hfits : 2 + i + bytes.length ≤ 8) (s : State) :
    ∃ q, storeContent bytes i s = .done () { deliver bytes (2 + i) s with rsp := q } := by
  induction bytes generalizing i s with
  | nil => exact ⟨s.rsp, rfl⟩
  | cons b bytes ih =>
    rw [List.length_cons] at hfits
    obtain ⟨q, hq⟩ := ih (i := i + 1) (by omega) { s.outsideWrite (2 + i) b with rsp := some ⟨.ok, 0⟩ }
    refine ⟨q, ?_⟩
    rw [storeContent, ask_stu8 (by omega), Run.andThen, hq, deliver_setRsp, deliver_cons (by omega)]
    rfl

/-- PKTSER of a well-formed record leaves its data section in BUF, as a delivery does, and hands it to the driver. -/
theorem pktser_done {p : Packet} (hp : p.wf) (s : State) :
    ∃ q, pktser p s = .done ⟨identifier Config.hdrFlagOrder p.priority p.destination, p.contentLength + 2, p.data⟩
      { deliver p.data 0 s with rsp := q } := by
  have hfits : p.contentLength ≤ 6 := hp
  have hlen := p.length_meaningful hp
  obtain ⟨q, hloop⟩ := storeContent_done (bytes := p.meaningful) (i := 0) (by omega)
    { (s.outsideWrite 0 p.command).outsideWrite 1 p.senderId with rsp := some ⟨.ok, 0⟩ }
  rw [deliver_setRsp] at hloop
  refine ⟨q, (Run.andThen_of_done (ask_hdrenc _ _ _) _).trans ((Run.andThen_of_done (ask_dlcenc hfits _) _).trans
    ((Run.andThen_of_done (ask_stu8 (addr := 0) (by omega) _ _) _).trans
    ((Run.andThen_of_done (ask_stu8 (addr := 1) (by omega) _ _) _).trans
    ((Run.andThen_of_done hloop _).trans ?_))))⟩
  have hdata := map_bufByte_deliver (p.length_data_le hp) s 0
  rw [p.length_data hp, Nat.sub_zero, ← List.range_eq_range', List.drop_zero] at hdata
  dsimp only
  rw [toNat_lowByte (by omega), zext32, extractLsb'_setWidth_word (by omega)]
  exact congrArg (fun data => Run.done (Frame.mk _ _ data) _) hdata

/-- Settles O58: up to six content bytes BUF is left as by a delivery of the data section; above six DLCENC raises. -/
theorem pktserBuildsTheFrame : Obligations.PktserBuildsTheFrame := by
  refine fun p s => ⟨fun hp => ?_, fun h h' => ?_⟩
  · obtain ⟨q, hrun⟩ := pktser_done hp s
    exact ⟨_, hrun, commandByte_deliver hp s, senderIdByte_deliver hp s, fun i => contentByte_deliver hp s,
      fun a => bufByte_deliver_behind hp s⟩
  · have hstop := ask_raise (m := .dlcenc) ((performWord_dlcenc h' 0).trans (exec_dlcenc_of_gt h))
    rw [pktser, ask_hdrenc, Run.andThen, hstop, Run.andThen]
    rfl

/-! ## PKTDES (R124, R125) -/

/-- PKTDES's loop reads the content and changes nothing. -/
theorem loadContent_done {count i : Nat} (hfits : 2 + i + count ≤ 8) (s : State) :
    ∃ q, loadContent count i s = .done ((List.range' (2 + i) count).map s.bufByte) { s with rsp := q } := by
  induction count generalizing i s with
  | zero => exact ⟨s.rsp, rfl⟩
  | succ count ih =>
    obtain ⟨q, hloop⟩ := ih (i := i + 1) (by omega) { s with rsp := some ⟨.ok, zext32 (s.bufByte (2 + i))⟩ }
    refine ⟨q, (Run.andThen_of_done (ask_ldu8 (by omega) s) _).trans ((Run.andThen_of_done hloop _).trans ?_)⟩
    rw [zext32, extractLsb'_setWidth_word (by omega)]
    rfl

/-- PKTDES of a frame with a legal DLC gives the record that stands in the identifier and BUF. -/
theorem pktdes_done (p : Priority) (da : DeviceAddress) {len : Nat} (hlen : len ≤ 6)
    (beyond : Vector Byte Config.maxContent) (s : State) :
    ∃ q, pktdes (identifier Config.hdrFlagOrder p da) (len + 2) beyond s =
      .done ⟨da, p, s.senderIdByte, s.commandByte, len, fillContent ((List.range' 2 len).map s.bufByte) beyond⟩
        { s with rsp := q } := by
  obtain ⟨q, hloop⟩ := loadContent_done (count := len) (i := 0) (by omega)
    { s with rsp := some ⟨.ok, zext32 (s.bufByte 1)⟩ }
  have hword : (BitVec.ofNat 32 len).toNat = len := toNat_ofNat_of_lt_256 (by omega)
  refine ⟨q, (Run.andThen_of_done (ask_dlcdec hlen _) _).trans ((Run.andThen_of_done (ask_hdrdec _ _ _) _).trans
    ((Run.andThen_of_done (ask_ldu8 (addr := 0) (by omega) _) _).trans
    ((Run.andThen_of_done (ask_ldu8 (addr := 1) (by omega) _) _).trans ?_)))⟩
  rw [hword]
  refine (Run.andThen_of_done hloop _).trans ?_
  rw [headerOperand_getLsbD_priority, headerOperand_extractLsb'_address, Priority.ofBit_bit,
    unpackAddress_packAddress, zext32, zext32, extractLsb'_setWidth_word (by omega),
    extractLsb'_setWidth_word (by omega)]
  rfl

/-- Settles O59: PKTDES reads a record from the delivered data section, which is the one PKTSER built. -/
theorem frameRoundTrip : Obligations.FrameRoundTrip := by
  intro p beyond s s' hp
  obtain ⟨_, hser⟩ := pktser_done hp s
  obtain ⟨_, hdes⟩ := pktdes_done p.priority p.destination hp beyond (deliver p.data 0 s')
  refine ⟨_, _, _, _, hser, hdes, rfl, rfl, (senderIdByte_deliver hp s').symm, (commandByte_deliver hp s').symm, rfl,
    fun i h hi => ?_⟩
  simp only [map_bufByte_deliver_content hp s', p.fillContent_meaningful beyond i h hi]

/-- Settles O60: the DLC check comes first. -/
theorem malformedFrameIsRejected : Obligations.MalformedFrameIsRejected := by
  intro id dlc beyond s h
  have hstop := ask_raise (m := .dlcdec) ((performWord_dlcdec dlc.isLt 0).trans (exec_dlcdec_outOfRange h)) s
  rw [pktdes, hstop, Run.andThen, Cause.status]

end Sys2Proof.Machine
end

section
/-! PROOFS, 60_exceptions.md: where an operation is answered OK (R133, R134), where an exception is raised (R131, R132)
and what it does (R137). An operation whose contract is broken is the exception itself, so what a word raises is known
from its fields. -/

namespace Sys2Proof.Machine

/-! ## Operations whose contract is kept (R133, R134) -/

/-- A meaning answers OK from every state. -/
def AnswersOk (f : State → Result) : Prop :=
  ∀ s, ∃ (t : State) (r : Word), f s = .next t ∧ t.rsp = some ⟨.ok, r⟩

theorem answersOk_respond (r : Word) : AnswersOk (respond r) := fun _ => ⟨_, r, rfl, rfl⟩

theorem answersOk_load {off n : Nat} (hb : off + n ≤ 8) (ext : Nat → Word) : AnswersOk (load off n ext) :=
  fun s => ⟨_, _, load_inBounds hb ext s, rfl⟩

theorem answersOk_store {off n : Nat} (hb : off + n ≤ 8) (v : Nat) : AnswersOk (store off n v) :=
  fun s => ⟨_, _, store_inBounds hb v s, rfl⟩

theorem answersOk_dlcenc {len : Nat} (h : len ≤ 6) : AnswersOk (exec (.dlcenc len)) :=
  exec_dlcenc_of_le h ▸ answersOk_respond _

theorem answersOk_dlcdec {dlc : Nat} (h : 2 ≤ dlc) (h' : dlc ≤ 8) : AnswersOk (exec (.dlcdec dlc)) :=
  exec_dlcdec_inRange h h' ▸ answersOk_respond _

/-- An operation whose contract is kept answers OK. -/
theorem answersOk_of_contractKept {i : Instr} (h : contractKept i = true) : AnswersOk (exec i) := by
  cases i
  case ldu8 | ldu16 | ldu24 | ldu32 | ldi16 | ldi24 | ldi32 => exact answersOk_load (of_decide_eq_true h) _
  case stu8 | stu16 | stu24 | stu32 | sti16 | sti24 | sti32 => exact answersOk_store (of_decide_eq_true h) _
  case dlcenc => exact answersOk_dlcenc (of_decide_eq_true h)
  case dlcdec =>
    obtain ⟨hlo, hhi⟩ := Bool.and_eq_true_iff.1 h
    exact answersOk_dlcdec (of_decide_eq_true hlo) (of_decide_eq_true hhi)
  all_goals exact fun s => answersOk_respond _ s

/-- Settles O17, operation by operation. -/
theorem completesWhenContractKept : Obligations.CompletesWhenContractKept :=
  fun _ s h => answersOk_of_contractKept h s

/-! ## Operations whose contract is broken (R131, R132) -/

/-- The exception of a broken contract: MalformedFrame is DLCDEC's alone (R131), ContractViolation everyone else's. -/
def brokenContract (op : BitVec 8) : Cause := if op = 0x53 then .malformedFrame else .contractViolation

theorem load_eq_raise {off n : Nat} (h : 8 < off + n) (ext : Nat → Word) : load off n ext = raise .contractViolation :=
  funext (load_outOfBounds h ext)

theorem store_eq_raise {off n : Nat} (h : 8 < off + n) (v : Nat) : store off n v = raise .contractViolation :=
  funext (store_outOfBounds h v)

/-- An operation whose contract is broken raises the exception of its `op`, whatever the state. -/
theorem exec_eq_raise {i : Instr} (h : contractKept i = false) : exec i = raise (brokenContract i.op) := by
  cases i
  case ldu8 | ldu16 | ldu24 | ldu32 | ldi16 | ldi24 | ldi32 =>
    exact load_eq_raise (not_le.1 (of_decide_eq_false h)) _
  case stu8 | stu16 | stu24 | stu32 | sti16 | sti24 | sti32 =>
    exact store_eq_raise (not_le.1 (of_decide_eq_false h)) _
  case dlcenc => exact exec_dlcenc_of_gt (not_le.1 (of_decide_eq_false h))
  case dlcdec dlc => exact exec_dlcdec_outOfRange (by simp [contractKept] at h; omega)
  all_goals cases h

/-! ## The words that raise (R131, R132) -/

/-- The words that break a contract, exception by exception: R131's condition and R132's table. -/
def Violates (op off : BitVec 8) (a : Word) : Cause → Prop
  | .malformedFrame => op = 0x53 ∧ (a.toNat % 256 < 2 ∨ 8 < a.toNat % 256)
  | .contractViolation => isReservedOp op.toNat = true ∨
      (readsOff op.toNat = true ∧ 8 < off.toNat + (op.toNat % 4 + 1)) ∨ (op = 0x52 ∧ 6 < a.toNat % 256)

/-- A row of the decoder's table reads an operation with a broken contract from exactly the fields that violate it. -/
theorem violates_iff_of_mem_opTable {op : BitVec 8} {read : ReadFields} (h : (op, read) ∈ opTable) (off : BitVec 8)
    (a : Word) (c : Cause) :
    Violates op off a c ↔ contractKept (read off a) = false ∧ c = brokenContract op := by
  have rows : ∀ row ∈ opTable, ∀ off a,
      Violates row.1 off a c ↔ contractKept (row.2 off a) = false ∧ c = brokenContract row.1 := by
    cases c with
    | malformedFrame =>
      simp [opTable, portabilityRows, loadRows, storeRows, decoderRows, encoderRows, headerRows, Violates,
        contractKept, brokenContract]
      omega
    | contractViolation =>
      simp [opTable, portabilityRows, loadRows, storeRows, decoderRows, encoderRows, headerRows, Violates,
        contractKept, brokenContract, isReservedOp, readsOff]
      and_intros <;> intro off <;> omega
  exact rows _ h off a

/-- A reserved `op` violates its contract whatever the fields, and always by ContractViolation (R39). -/
theorem violates_iff_of_isReservedOp {op : BitVec 8} (h : isReservedOp op.toNat = true) (off : BitVec 8) (a : Word)
    (c : Cause) : Violates op off a c ↔ c = .contractViolation := by
  cases c with
  | malformedFrame =>
    have hop : op ≠ 0x53 := by rintro rfl; cases h
    exact iff_of_false (fun hviolates => hop hviolates.1) nofun
  | contractViolation => simp [Violates, h]

/-- A word violates one contract and performs as its exception, or violates none and answers OK. -/
theorem performWord_raises_or_answersOk (w : ReqWord) :
    (∃ c, (∀ c', Violates (reqOp w) (reqOff w) (reqA w) c' ↔ c' = c) ∧ performWord w = raise c) ∨
      (∀ c, ¬ Violates (reqOp w) (reqOff w) (reqA w) c) ∧ AnswersOk (performWord w) := by
  cases hres : isReservedOp (reqOp w).toNat with
  | true =>
    exact .inl ⟨.contractViolation, violates_iff_of_isReservedOp hres _ _,
      performWord_of_decode_error (decode_of_isReservedOp hres)⟩
  | false =>
    obtain ⟨read, hmem, hdec⟩ := decode_of_not_isReservedOp hres
    have hiff := violates_iff_of_mem_opTable hmem (reqOff w) (reqA w)
    rw [performWord_of_decode hdec]
    cases hkept : contractKept (read (reqOff w) (reqA w)) with
    | true => exact .inr ⟨by simp [hiff, hkept], answersOk_of_contractKept hkept⟩
    | false =>
      exact .inl ⟨brokenContract (reqOp w), by simp [hiff, hkept], by rw [exec_eq_raise hkept, op_of_decode hdec]⟩

/-- A step on a word that violates a contract changes nothing but the response (R137). -/
theorem step_present_of_violates {w : ReqWord} {c : Cause} (h : Violates (reqOp w) (reqOff w) (reqA w) c) (s : State) :
    step (s.present w) = .next { s with rsp := some ⟨c.status, 0⟩ } := by
  obtain ⟨c', hiff, hperf⟩ | ⟨hnone, -⟩ := performWord_raises_or_answersOk w
  · obtain rfl := (hiff c).1 h
    rw [step_present, hperf, raise_eq]
  · exact absurd h (hnone c)

/-- A status other than OK comes from a violated contract, with the result 0. -/
theorem violates_of_status_ne_ok {s t : State} {w : ReqWord} {p : Response} (hstep : step (s.present w) = .next t)
    (hrsp : t.rsp = some p) (hp : p.status ≠ .ok) :
    ∃ c, Violates (reqOp w) (reqOff w) (reqA w) c ∧ p = ⟨c.status, 0⟩ := by
  rw [step_present] at hstep
  obtain ⟨c, hiff, hperf⟩ | ⟨-, hok⟩ := performWord_raises_or_answersOk w
  · rw [hperf, raise_eq] at hstep
    cases hstep
    exact ⟨c, (hiff c).2 rfl, (Option.some.inj hrsp).symm⟩
  · obtain ⟨t', r, hnext, hanswer⟩ := hok { s with rsp := none }
    obtain rfl := Host.Outcome.next.inj (hnext.symm.trans hstep)
    obtain rfl := Option.some.inj (hanswer.symm.trans hrsp)
    exact absurd rfl hp

/-- The status names the exception. -/
theorem Cause.status_injective : Function.Injective Cause.status
  | .malformedFrame, .malformedFrame, _ => rfl
  | .contractViolation, .contractViolation, _ => rfl

/-- Each exception is raised by exactly the words that violate its contract. -/
theorem raised_exactly_where (c : Cause) (s : State) (w : ReqWord) :
    (Violates (reqOp w) (reqOff w) (reqA w) c → step (s.present w) = .next { s with rsp := some ⟨c.status, 0⟩ }) ∧
      ∀ (t : State) (r : Word), step (s.present w) = .next t → t.rsp = some ⟨c.status, r⟩ →
        Violates (reqOp w) (reqOff w) (reqA w) c := by
  refine ⟨fun h => step_present_of_violates h s, fun t r hstep hrsp => ?_⟩
  obtain ⟨c', hviolates, hanswer⟩ := violates_of_status_ne_ok hstep hrsp c.status_ne_ok
  rwa [Cause.status_injective (congrArg Response.status hanswer)]

/-- Settles O18: the words that violate DLCDEC's contract. -/
theorem malformedFrameExactlyWhere : Obligations.MalformedFrameExactlyWhere := raised_exactly_where .malformedFrame

/-- Settles O19: the words of R132's table. -/
theorem contractViolationExactlyWhere : Obligations.ContractViolationExactlyWhere :=
  raised_exactly_where .contractViolation

/-! ## What an exception does (R137) -/

/-- Settles O20: the status comes from a violated contract, whose step only answers. -/
theorem exceptionHasNoEffect : Obligations.ExceptionHasNoEffect := by
  intro s t w p hstep hrsp hp
  obtain ⟨c, hviolates, rfl⟩ := violates_of_status_ne_ok hstep hrsp hp
  obtain rfl := Host.Outcome.next.inj ((step_present_of_violates hviolates s).symm.trans hstep)
  exact ⟨rfl, rfl, s.bufByte_setRsp _⟩

end Sys2Proof.Machine
end

section
/-! PROOFS, 70_reset_and_hazards.md: what reset leaves (R150), and that a machine without a contended request waiting goes
on, one input a step (R158). Only a contended request is not answered with a next state, and no act of the outside
touches the inputs that wait behind it. -/

namespace Sys2Proof.Machine

/-! ## Reset (R150) -/

/-- Settles O46: nothing is written in BUF and nothing stands at the response port. -/
theorem resetHasTheInvariant : Obligations.ResetHasTheInvariant := State.inv_of_silent Memory.wf_nil rfl

/-- A BUF in which nothing is written holds the free value of the reset count in every byte. -/
theorem State.bufByte_of_buf_nil {s : State} (h : s.buf = []) (a : Nat) :
    s.bufByte a = Config.unwrittenByte s.epoch a :=
  State.bufByte_unwritten (by rw [h, Memory.read?_nil])

/-- Settles O47: the step of a reset input is the reset of the state taken, whose BUF nothing has written. -/
theorem resetLeaves : Obligations.ResetLeaves :=
  ⟨rfl, rfl, State.bufByte_of_buf_nil rfl, fun s rest hin =>
    ⟨(s.taken rest).afterReset, step_serve hin, rfl, rfl, rfl, rfl, State.bufByte_of_buf_nil rfl⟩⟩

/-! ## Progress (R158) -/

/-- An act of the outside that is no contended request is served, and the inputs behind it go on waiting. -/
theorem serve_of_uncontended {x : Input} (hx : x.uncontended = true) (s : State) :
    ∃ t, serve x s = .next t ∧ t.inputs = s.inputs := by
  cases x with
  | request w =>
    obtain ⟨t, p, hperf, -, -, hinputs, -⟩ := (performWord_effect w s).exists_answer
    exact ⟨t, hperf, hinputs⟩
  | bufWrite | reset => exact ⟨_, rfl, rfl⟩
  | contended => simp [Input.uncontended] at hx

/-- A step without a contended request waiting takes the oldest input, if there is one. -/
theorem step_of_uncontended {s : State} (h : ∀ x ∈ s.inputs, x.uncontended = true) :
    ∃ t, step s = .next t ∧ t.inputs = s.inputs.tail := by
  cases hin : s.inputs with
  | nil => exact ⟨_, step_idle hin, s.taken_inputs []⟩
  | cons x rest =>
    rw [step_serve hin]
    exact serve_of_uncontended (h x (by simp [hin])) (s.taken rest)

/-- Settles O54, by induction on the number of steps: what waits after a step waited before it. -/
theorem everyUncontendedRunGoesOn : Obligations.EveryUncontendedRunGoesOn := by
  intro s h n
  induction n generalizing s with
  | zero => exact ⟨s, rfl, rfl⟩
  | succ n ih =>
    obtain ⟨mid, hstep, hmid⟩ := step_of_uncontended h
    obtain ⟨t, hrun, ht⟩ := ih mid fun x hx => h x (List.mem_of_mem_tail (hmid ▸ hx))
    exact ⟨t, (run_succ_of_next _ _ _ _ hstep).trans hrun, by rw [ht, hmid, List.drop_tail]⟩

end Sys2Proof.Machine
end
